-- ==== Sys2Proof/Word.lean ====
section
/-! DEFINITION. The word types of the atorch frame codec: bytes, 32-bit port words and byte sequences
(00_scope.md R9, R10). -/

namespace Sys2Proof

/-- A byte, an unsigned integer 0..255 (R9). -/
abbrev Byte := BitVec 8

/-- A 32-bit port word: `enc_arg` (R192, read as two's complement) and `co2f_ppm` (R25, unsigned). -/
abbrev Word32 := BitVec 32

/-- A byte sequence; index 0 is the byte that crosses the transport first (R9, R50). -/
abbrev Bytes := List Byte

end Sys2Proof
end

