-- ==== Sys2Proof/Config.lean ====
section
/-! DEFINITION. The parameters of the block (00_scope.md R7, R8) as types, and the free values: the constants of
which nothing is known. The numbers themselves (ROM contents, defaults) stand in Sys2Proof/Machine/Rom.lean. -/

namespace Sys2Proof

/-- The closed set of device families (R14 Variant, R155). -/
inductive Variant where
  | ac
  | dc
  | usb
deriving DecidableEq, Repr

/-- The two message types of the wire format (R14 Message-type tag, R81); the argument of VALIDATE (R26, R143). -/
inductive MsgType where
  | report
  | command
deriving DecidableEq, Repr

/-- The ten operations of the Command Encoder, in the order of `enc_op` (R78). -/
inductive EncOp where
  | resetWh
  | resetAh
  | resetDuration
  | resetAll
  | setBacklightTime
  | setPrice
  | setup
  | enter
  | setPlus
  | setMinus
deriving DecidableEq, Repr

/-- How the encoder forms the value of a command (R75, R191). -/
inductive ValueMode where
  | zero
  | clampBl
  | clampPrice
deriving DecidableEq, Repr

/-- The backlight classification (R108). -/
inductive BlClass where
  | off
  | on
  | seconds (b : Byte)
deriving DecidableEq, Repr

/-- A field descriptor of a layout ROM (R159): offset, width in bytes, multiplier. -/
structure Desc where
  off : Nat
  n : Nat
  mult : Nat
deriving DecidableEq, Repr

/-- The shape of `LAYOUT[AC]` (R160). -/
structure AcLayout where
  voltage : Desc
  current : Desc
  power : Desc
  energy : Desc
  price : Desc
  freq : Desc
  pf : Desc
  temp : Desc
  durOff : Nat
  blOff : Nat
deriving DecidableEq, Repr

/-- The shape of `LAYOUT[DC]` (R165). -/
structure DcLayout where
  voltage : Desc
  current : Desc
  energy : Desc
  price : Desc
  temp : Desc
  durOff : Nat
  blOff : Nat
deriving DecidableEq, Repr

/-- `LAYOUT[USB]`, an OPEN table (R7, R170, U3): which fields a USB report has, with every offset, width and multiplier,
and which values are derived from them. A field the table lacks is none. The names are those of R177; a field of any
other name and unit stands in `extra`. DESIGN CHOICE: this form of the table (log entry 7). -/
structure UsbLayout where
  voltage : Option Desc
  current : Option Desc
  /-- a power read from the frame, as AC has it -/
  power : Option Desc
  energy : Option Desc
  price : Option Desc
  freq : Option Desc
  pf : Option Desc
  dminus : Option Desc
  dplus : Option Desc
  charge : Option Desc
  temp : Option Desc
  /-- offset of the duration (R174) -/
  durOff : Option Nat
  /-- offset of the backlight byte (R175) -/
  blOff : Option Nat
  /-- further fields, in the order of the table -/
  extra : List Desc
  /-- a power is derived from voltage and current, as for DC (R172) -/
  derivesPower : Bool
  /-- a co2 is derived from the energy, as for AC and DC (C9) -/
  derivesCo2 : Bool
  /-- the fee divisor that an instantiation with a fee supplies (C9); 0 where it supplies none -/
  feeDiv : Nat
deriving DecidableEq, Repr

/-- Which checksum function an instantiation uses (R140, R142): the fitted default of R141, or any other function,
of which only the twelve vectors of R142 are known. Plain data that names a function, so that State can hold it
(log entry 2). -/
inductive CkSel where
  | fitted
  | other (n : Nat)
deriving DecidableEq, Repr

/-- The OPEN parameters of R7 but `CO2F_DEFAULT`. -/
structure RawParams where
  /-- `REPORT_TAG` (D10) -/
  reportTag : Byte
  /-- `REPORT_LEN[AC]` (D15) -/
  lenAc : Nat
  /-- `REPORT_LEN[DC]` (D15) -/
  lenDc : Nat
  /-- `REPORT_LEN[USB]` (D15) -/
  lenUsb : Nat
  /-- `BUF_CAP` (D6) -/
  bufCap : Nat
  /-- `CK` (D17) -/
  ck : CkSel
  /-- `LAYOUT[USB]` (D21) -/
  layoutUsb : UsbLayout
deriving DecidableEq, Repr

/-- FREE VALUE. `CO2F_DEFAULT` (R7, R173, D25): OPEN with no default; the spec gives no number, so nothing is known of
it but its width, 32 bits, which R109 and R177 need for the width of co2. DEDUCED (log entry 6); safe. -/
opaque Config.co2fDefault : Word32

/-- FREE VALUE. What a read past the end of a byte sequence gives (R11: not defined; R157, U17: unreachable through
DECODE). DESIGN CHOICE (log entry 14); safe. -/
opaque Config.pastEnd : Nat → Byte

/-- FREE VALUE. Whether the one port err_code shows the second of two failure codes of one beat (first argument: the
first code); the spec does not say which it shows (R32, R220). DESIGN CHOICE: one of the two, by the two codes alone
(log entry 28); safe, but unsafe for a claim that compares two such beats. -/
opaque Config.errCodeShowsSecond : BitVec 3 → BitVec 3 → Bool

/-- FREE VALUE. The checksum functions other than the fitted one, before the test of R142 that each admissible one
passes (Sys2Proof.Machine.ck). DESIGN CHOICE (log entry 2); safe. -/
opaque Config.freeCk : Nat → Bytes → Byte

end Sys2Proof
end

