-- ==== Sys2Proof/Machine/Rom.lean ====
section
/-! DEFINITION. The fixed and decided numbers of R7 and the four ROMs of R29, R60: DISPATCH, REPORT_LEN, LAYOUT,
OPCODE_ROM; the defaults of the OPEN parameters and when an instantiation is well formed (R7, R157, U19). -/

namespace Sys2Proof.Machine

/-- First byte of `HEADER` (R7). -/
def hdr0 : Byte := 0xFF#8

/-- Second byte of `HEADER` (R7). -/
def hdr1 : Byte := 0x55#8

/-- `CMD_TAG` (R7, R81). -/
def cmdTag : Byte := 0x11#8

/-- `CMD_LEN` (R7). -/
def cmdLen : Nat := 10

/-- `MIN_FRAME_LEN` (R7, R152). -/
def minFrameLen : Nat := 5

/-- `CK_XOR` (R7, R141). -/
def ckXor : Byte := 0x44#8

/-- The device-type byte of a variant (R7 DEV_AC, DEV_DC, DEV_USB; R80). -/
def deviceByte : Variant → Byte
  | .ac => 0x01#8
  | .dc => 0x02#8
  | .usb => 0x03#8

/-- The DISPATCH ROM (R155): 256 entries, three of them valid. -/
def dispatch (d : Byte) : Option Variant :=
  if d = 0x01#8 then some .ac
  else if d = 0x02#8 then some .dc
  else if d = 0x03#8 then some .usb
  else none

/-- `LAYOUT[AC]` (R160). -/
def layoutAc : AcLayout where
  voltage := ⟨4, 3, 100⟩
  current := ⟨7, 3, 1⟩
  power := ⟨10, 3, 100⟩
  energy := ⟨13, 4, 10000⟩
  price := ⟨17, 3, 1⟩
  freq := ⟨20, 2, 1⟩
  pf := ⟨22, 2, 1⟩
  temp := ⟨24, 2, 1⟩
  durOff := 26
  blOff := 30

/-- `LAYOUT[DC]` (R165). -/
def layoutDc : DcLayout where
  voltage := ⟨4, 3, 100⟩
  current := ⟨7, 3, 1⟩
  energy := ⟨13, 4, 10⟩
  price := ⟨17, 3, 1⟩
  temp := ⟨24, 2, 1⟩
  durOff := 26
  blOff := 30

/-- The default of the OPEN parameter `LAYOUT[USB]` (R170). -/
def layoutUsbDefault : UsbLayout where
  voltage := some ⟨4, 3, 100⟩
  current := some ⟨7, 3, 1⟩
  power := none
  energy := some ⟨13, 4, 10⟩
  price := none
  freq := none
  pf := none
  dminus := some ⟨17, 2, 10⟩
  dplus := some ⟨19, 2, 10⟩
  charge := some ⟨21, 4, 1⟩
  temp := some ⟨25, 2, 1⟩
  durOff := some 27
  blOff := some 31
  extra := []
  derivesPower := true
  derivesCo2 := false
  feeDiv := 0

/-- The selector `enc_op` (R78); 10 to 15 select no operation. -/
def encOpOf (op : BitVec 4) : Option EncOp :=
  match op.toNat with
  | 0 => some .resetWh
  | 1 => some .resetAh
  | 2 => some .resetDuration
  | 3 => some .resetAll
  | 4 => some .setBacklightTime
  | 5 => some .setPrice
  | 6 => some .setup
  | 7 => some .enter
  | 8 => some .setPlus
  | 9 => some .setMinus
  | _ => none

/-- The number of an operation on `enc_op` (R78). -/
def selectorOf : EncOp → BitVec 4
  | .resetWh => 0#4
  | .resetAh => 1#4
  | .resetDuration => 2#4
  | .resetAll => 3#4
  | .setBacklightTime => 4#4
  | .setPrice => 5#4
  | .setup => 6#4
  | .enter => 7#4
  | .setPlus => 8#4
  | .setMinus => 9#4

/-- The OPCODE_ROM (R191), addressed by the operation and `is_usb`. -/
def opcodeRom (op : EncOp) (isUsb : Bool) : Byte × ValueMode :=
  match op with
  | .resetWh => (0x01#8, .zero)
  | .resetAh => (0x02#8, .zero)
  | .resetDuration => (0x03#8, .zero)
  | .resetAll => (0x05#8, .zero)
  | .setBacklightTime => (0x21#8, .clampBl)
  | .setPrice => (0x22#8, .clampPrice)
  | .setup => (0x31#8, .zero)
  | .enter => (0x32#8, .zero)
  | .setPlus => (if isUsb then 0x11#8 else 0x33#8, .zero)
  | .setMinus => (if isUsb then 0x12#8 else 0x34#8, .zero)

/-- A descriptor lies in the body of a frame of `len` bytes (R157) and is 1 to 4 bytes wide (R11). -/
def descFits (len : Nat) (d : Desc) : Bool :=
  decide (1 ≤ d.n) && decide (d.n ≤ 4) && decide (4 ≤ d.off) && decide (d.off + d.n + 1 ≤ len)

/-- Every field of `LAYOUT[AC]` fits a frame of `len` bytes (R157). -/
def layoutAcFits (len : Nat) (l : AcLayout) : Bool :=
  descFits len l.voltage && descFits len l.current && descFits len l.power && descFits len l.energy &&
  descFits len l.price && descFits len l.freq && descFits len l.pf && descFits len l.temp &&
  descFits len ⟨l.durOff, 4, 1⟩ && descFits len ⟨l.blOff, 1, 1⟩

/-- Every field of `LAYOUT[DC]` fits a frame of `len` bytes (R157). -/
def layoutDcFits (len : Nat) (l : DcLayout) : Bool :=
  descFits len l.voltage && descFits len l.current && descFits len l.energy &&
  descFits len l.price && descFits len l.temp &&
  descFits len ⟨l.durOff, 4, 1⟩ && descFits len ⟨l.blOff, 1, 1⟩

/-- The descriptors of an instance of `LAYOUT[USB]`: those of its named fields, its further fields, and the bytes of its
duration (four) and its backlight (one). -/
def usbDescs (l : UsbLayout) : List Desc :=
  [l.voltage, l.current, l.power, l.energy, l.price, l.freq, l.pf, l.dminus, l.dplus, l.charge, l.temp,
    l.durOff.map (⟨·, 4, 1⟩), l.blOff.map (⟨·, 1, 1⟩)].filterMap id ++ l.extra

/-- Every field of `LAYOUT[USB]` fits a frame of `len` bytes (R157, U19); nothing else is asked of the table. -/
def layoutUsbFits (len : Nat) (l : UsbLayout) : Bool := (usbDescs l).all (descFits len)

/-- `REPORT_LEN[v]` is at least `MIN_FRAME_LEN` and at most `BUF_CAP` (R7). -/
def lenOk (cap len : Nat) : Bool :=
  decide (minFrameLen ≤ len) && decide (len ≤ cap)

/-- When an instantiation of the parameters is well formed (R7, R157, U19). That `CK` satisfies the vectors of R142
needs no test here: every `CkSel` denotes a function that does (Sys2Proof.Machine.ck). -/
def paramsWf (P : RawParams) : Bool :=
  decide (P.reportTag ≠ cmdTag) && decide (36 ≤ P.bufCap) &&
  lenOk P.bufCap P.lenAc && lenOk P.bufCap P.lenDc && lenOk P.bufCap P.lenUsb &&
  layoutAcFits P.lenAc layoutAc && layoutDcFits P.lenDc layoutDc && layoutUsbFits P.lenUsb P.layoutUsb

/-- The parameters of an instantiation. The constructor rejects an ill-formed configuration (U19): it asks for the
proof that `paramsWf` holds. -/
structure Params where
  raw : RawParams
  ok : paramsWf raw = true
deriving DecidableEq, Repr

/-- The defaults of the OPEN parameters (R7). DESIGN CHOICE (log entries 1, 3, 4, 5, 7). -/
def rawDefault : RawParams where
  reportTag := 0x01#8
  lenAc := 36
  lenDc := 36
  lenUsb := 36
  bufCap := 256
  ck := .fitted
  layoutUsb := layoutUsbDefault

/-- The default instantiation (R7). -/
def defaultParams : Params := ⟨rawDefault, by decide⟩

/-- The REPORT_LEN ROM (R29, R157). -/
def reportLen (P : RawParams) : Variant → Nat
  | .ac => P.lenAc
  | .dc => P.lenDc
  | .usb => P.lenUsb

/-- The tag value an expected type stands for (R143). -/
def tagOf (P : RawParams) : MsgType → Byte
  | .report => P.reportTag
  | .command => cmdTag

end Sys2Proof.Machine
end

