-- ==== Sys2Proof/Syntax.lean ====
section
/-! DEFINITION. The instructions of the block, one constructor per row of spec/opcode_table.json (30_encoding.md R70),
and the beat: one presentation of all input ports (10_state.md R30, R32). -/

namespace Sys2Proof

/-- What R70 calls an instruction: four host operations (format PORT, R77), twelve command frame kinds (format CMD10,
R72, R79) and three report frame kinds (format RPT, R73). -/
inductive Instr where
  /-- CLEAR (R125): strobe `1000`. -/
  | clear
  /-- FLUSH (R124): strobe `0100`. -/
  | flush
  /-- FEED (R123, per beat R132): strobe `0010`; one byte of a chunk and whether it is the chunk's last. -/
  | feed (data : Byte) (last : Bool)
  /-- ENCODE (R190): strobe `0001`; `enc_op`, `enc_dev`, `enc_arg`. -/
  | encode (op : BitVec 4) (dev : Byte) (arg : Word32)
  /-- resetWh (R195). `cks` is the checksum byte as the frame has it (log entry 18); so in the eleven that follow. -/
  | resetWh (dev cks : Byte)
  /-- resetAh (R196). -/
  | resetAh (dev cks : Byte)
  /-- resetDuration (R197). -/
  | resetDuration (dev cks : Byte)
  /-- resetAll (R198). -/
  | resetAll (dev cks : Byte)
  /-- setBacklightTime (R199); `arg` is the value in seconds. -/
  | setBacklightTime (dev : Byte) (arg : Word32) (cks : Byte)
  /-- setPrice (R200); `arg` is the price as the wire carries it. -/
  | setPrice (dev : Byte) (arg : Word32) (cks : Byte)
  /-- setup (R201). -/
  | setup (dev cks : Byte)
  /-- enter (R202). -/
  | enter (dev cks : Byte)
  /-- setPlus, device types 1 and 2 (R203). -/
  | setPlus (dev cks : Byte)
  /-- setPlus, device type 3 (R203): row setPlus_usb. -/
  | setPlusUsb (cks : Byte)
  /-- setMinus, device types 1 and 2 (R204). -/
  | setMinus (dev cks : Byte)
  /-- setMinus, device type 3 (R204): row setMinus_usb. -/
  | setMinusUsb (cks : Byte)
  /-- REPORT_AC (R161): the body, bytes 4 .. REPORT_LEN-2, and the checksum byte (R73). -/
  | reportAc (body : Bytes) (cks : Byte)
  /-- REPORT_DC (R166). -/
  | reportDc (body : Bytes) (cks : Byte)
  /-- REPORT_USB (R171). -/
  | reportUsb (body : Bytes) (cks : Byte)
deriving DecidableEq, Repr

/-- A beat: one presentation of every input port (R30, R32; configuration inputs R25). -/
structure Beat where
  /-- strobe: CLEAR -/
  clear : Bool
  /-- strobe: FLUSH -/
  flush : Bool
  /-- this beat carries one chunk byte -/
  rxValid : Bool
  /-- the chunk byte -/
  rxData : Byte
  /-- with `rxValid`: the byte is the last of its chunk -/
  rxLast : Bool
  /-- strobe: ENCODE -/
  encReq : Bool
  /-- operation selector (R78) -/
  encOp : BitVec 4
  /-- device type -/
  encDev : Byte
  /-- argument, two's complement (R192) -/
  encArg : Word32
  /-- 0: decode with CO2F_DEFAULT; 1: with `co2fPpm` (R25, R173) -/
  co2fSel : Bool
  /-- co2 factor in parts per million (R25) -/
  co2fPpm : Word32
deriving DecidableEq, Repr

end Sys2Proof
end

