-- ==== Sys2Proof/WellFormed.lean ====
section
/-! DEFINITION. When an instruction is well formed: its operands lie in the exact sets that the row's `fields` entry and
the row's rule name, which are tighter than the row's mask (30_encoding.md R74). The checksum is not tested here: R74
keeps having a form and being valid apart (`frameValid` in Sys2Proof/Machine/Encoder.lean). -/

namespace Sys2Proof

/-- A device type of R80: `0x01`, `0x02` or `0x03`. -/
def devOk (dev : Byte) : Bool :=
  decide (dev = 0x01#8) || decide (dev = 0x02#8) || decide (dev = 0x03#8)

/-- A device type of the rows setPlus and setMinus: `0x01` or `0x02` (R79). -/
def devNotUsb (dev : Byte) : Bool :=
  decide (dev = 0x01#8) || decide (dev = 0x02#8)

/-- A well-formed instruction of an instantiation `P` (R72, R73, R74, R77). -/
def Instr.wf (P : RawParams) : Instr → Bool
  | .clear => true
  | .flush => true
  | .feed _ _ => true
  | .encode _ _ _ => true
  | .resetWh dev _ => devOk dev
  | .resetAh dev _ => devOk dev
  | .resetDuration dev _ => devOk dev
  | .resetAll dev _ => devOk dev
  | .setBacklightTime dev arg _ => devOk dev && decide (arg.toNat ≤ 60)
  | .setPrice dev arg _ => devOk dev && decide (1 ≤ arg.toNat) && decide (arg.toNat ≤ 999999)
  | .setup dev _ => devOk dev
  | .enter dev _ => devOk dev
  | .setPlus dev _ => devNotUsb dev
  | .setPlusUsb _ => true
  | .setMinus dev _ => devNotUsb dev
  | .setMinusUsb _ => true
  | .reportAc body _ => decide (body.length + 5 = P.lenAc)
  | .reportDc body _ => decide (body.length + 5 = P.lenDc)
  | .reportUsb body _ => decide (body.length + 5 = P.lenUsb)

end Sys2Proof
end

