-- ==== Sys2Proof/Decode.lean ====
section
/-! DEFINITION. From bits to instructions and back: the port word of a beat (30_encoding.md R77), command frames (R72,
R79), report frames (R73), the numbering of a frame as a word (R74). The decoder is total and rejects by name; the
encoder follows it. It reads a frame's FORM (R74); it is not the block's DECODE (R150), which stands in
Sys2Proof/Machine/PacketDecoder.lean. -/

namespace Sys2Proof

/-- Why a byte sequence is no instruction. -/
inductive DecodeRefusal where
  /-- a sequence that is neither a port word of nine bytes nor a frame with header, tag and device type -/
  | noFormat
  /-- a bit of the port word that stands for no port is set (log entry 15) -/
  | strayPortBit
  /-- no strobe is asserted: an idle beat (R77), no instruction -/
  | idleBeat
  /-- several strobes in one beat (R231): several instructions, not one -/
  | severalStrobes
  /-- a tag that is neither CMD_TAG nor REPORT_TAG (R81, R82) -/
  | unknownTag
  /-- the length is not the row's length (R74, R86) -/
  | wrongLength
  /-- a command frame whose opcode is not assigned (R84) -/
  | unknownOpcode
  /-- a command frame whose device type the row's mask excludes (R74), or a report of no variant (R83) -/
  | unknownDevice
  /-- an opcode paired with a device type that the encoder never pairs it with (R84) -/
  | excludedDevice
  /-- a value the row's mask excludes (R74, R75) -/
  | valueOutsideForm
deriving DecidableEq, Repr

/-! ### Bytes and words -/

/-- Byte `i` of a sequence that is known to be long enough; 0 past the end (the decoder tests the length first). -/
def byteOr0 (f : Bytes) (i : Nat) : Byte := f.getD i 0x00#8

/-- A 32-bit word from its four bytes, most significant first (R51). -/
def word32Of (b3 b2 b1 b0 : Byte) : Word32 := b3 ++ b2 ++ b1 ++ b0

/-- The four bytes of a 32-bit word, most significant first (R104). -/
def bytesOf32 (v : Word32) : Bytes :=
  [v.extractLsb' 24 8, v.extractLsb' 16 8, v.extractLsb' 8 8, v.extractLsb' 0 8]

/-- The `n` bytes of a number, byte 0 most significant (R74). -/
def beBytes : Nat → Nat → Bytes
  | 0, _ => []
  | n + 1, w => BitVec.ofNat 8 (w >>> (8 * n)) :: beBytes n w

/-- The number of a frame's bytes, byte 0 most significant (R74). -/
def beNat (f : Bytes) : Nat := f.foldl (fun acc b => acc * 256 + b.toNat) 0

/-- The `n` lowest bytes of a number, the lowest first. -/
def leBytes : Nat → Nat → Bytes
  | 0, _ => []
  | n + 1, w => BitVec.ofNat 8 w :: leBytes n (w >>> 8)

/-! ### The port word (R77)

Nine bytes, one per port or group of ports. DESIGN CHOICE (log entry 15): the spec gives the strobe pattern's four bits
and the operand ports, no layout of them in a word. -/

/-- The number of bytes of a port word. -/
def portWordLen : Nat := 9

/-- Strobe pattern `clear flush rx_valid enc_req` (R77) as byte 0. -/
def patternByte (clear flush rxValid encReq : Bool) : Byte :=
  (0#4 : BitVec 4) ++ BitVec.ofBool clear ++ BitVec.ofBool flush ++ BitVec.ofBool rxValid ++ BitVec.ofBool encReq

/-- The port word of the given port values: pattern, `rx_data`, `rx_last`, `enc_op`, `enc_dev`, `enc_arg` big-endian. -/
def portWord (pattern data : Byte) (last : Bool) (op : BitVec 4) (dev : Byte) (arg : Word32) : Bytes :=
  [pattern, data, BitVec.zeroExtend 8 (BitVec.ofBool last), BitVec.zeroExtend 8 op, dev] ++ bytesOf32 arg

/-- The input ports as a port word presents them, every strobe bit as it stands (R30, R32). -/
def beatOfPortWord (co2fSel : Bool) (co2fPpm : Word32) (f : Bytes) : Beat where
  clear := (byteOr0 f 0).getLsbD 3
  flush := (byteOr0 f 0).getLsbD 2
  rxValid := (byteOr0 f 0).getLsbD 1
  encReq := (byteOr0 f 0).getLsbD 0
  rxData := byteOr0 f 1
  rxLast := (byteOr0 f 2).getLsbD 0
  encOp := (byteOr0 f 3).extractLsb' 0 4
  encDev := byteOr0 f 4
  encArg := word32Of (byteOr0 f 5) (byteOr0 f 6) (byteOr0 f 7) (byteOr0 f 8)
  co2fSel := co2fSel
  co2fPpm := co2fPpm

/-- The instructions a beat carries, in the order in which they take effect: CLEAR, then FLUSH, then the chunk byte
(R231); ENCODE, which is independent of the three (R206), comes last in the list (log entry 11). -/
def instrsOfBeat (b : Beat) : List Instr :=
  (if b.clear then [.clear] else []) ++ (if b.flush then [.flush] else []) ++
  (if b.rxValid then [.feed b.rxData b.rxLast] else []) ++
  (if b.encReq then [.encode b.encOp b.encDev b.encArg] else [])

/-- The port word of a beat. -/
def portWordOfBeat (b : Beat) : Bytes :=
  portWord (patternByte b.clear b.flush b.rxValid b.encReq) b.rxData b.rxLast b.encOp b.encDev b.encArg

/-- A port word of one strobe as an instruction (R77). -/
def decodePort (f : Bytes) : Except DecodeRefusal Instr :=
  if (byteOr0 f 0).extractLsb' 4 4 ≠ 0#4 ∨ (byteOr0 f 2).extractLsb' 1 7 ≠ 0#7 ∨ (byteOr0 f 3).extractLsb' 4 4 ≠ 0#4 then
    .error .strayPortBit
  else match instrsOfBeat (beatOfPortWord false 0#32 f) with
    | [] => .error .idleBeat
    | [i] => .ok i
    | _ => .error .severalStrobes

/-! ### Command frames (R72, R79) -/

/-- A command of value mode ZERO: its row's mask asks for a value of 0 (R75). -/
def decodeZeroValue (v : Word32) (i : Instr) : Except DecodeRefusal Instr :=
  if v = 0#32 then .ok i else .error .valueOutsideForm

/-- A command frame's bytes 3 to 9 by the row they have the form of (R74, R79, R84). -/
def decodeCommand (dev opc : Byte) (v : Word32) (cks : Byte) : Except DecodeRefusal Instr :=
  if ¬ dev.toNat ≤ 3 then .error .unknownDevice
  else if opc = 0x01#8 then decodeZeroValue v (.resetWh dev cks)
  else if opc = 0x02#8 then decodeZeroValue v (.resetAh dev cks)
  else if opc = 0x03#8 then decodeZeroValue v (.resetDuration dev cks)
  else if opc = 0x05#8 then decodeZeroValue v (.resetAll dev cks)
  else if opc = 0x21#8 then
    if v.toNat < 2 ^ 6 then .ok (.setBacklightTime dev v cks) else .error .valueOutsideForm
  else if opc = 0x22#8 then
    if v.toNat < 2 ^ 20 then .ok (.setPrice dev v cks) else .error .valueOutsideForm
  else if opc = 0x31#8 then decodeZeroValue v (.setup dev cks)
  else if opc = 0x32#8 then decodeZeroValue v (.enter dev cks)
  else if opc = 0x33#8 then
    if dev = 0x03#8 then .error .excludedDevice else decodeZeroValue v (.setPlus dev cks)
  else if opc = 0x34#8 then
    if dev = 0x03#8 then .error .excludedDevice else decodeZeroValue v (.setMinus dev cks)
  else if opc = 0x11#8 then
    if dev = 0x03#8 then decodeZeroValue v (.setPlusUsb cks) else .error .excludedDevice
  else if opc = 0x12#8 then
    if dev = 0x03#8 then decodeZeroValue v (.setMinusUsb cks) else .error .excludedDevice
  else .error .unknownOpcode

/-- The ten bytes of a command frame (R72). -/
def commandBytes (dev opc : Byte) (v : Word32) (cks : Byte) : Bytes :=
  [0xFF#8, 0x55#8, 0x11#8, dev, opc] ++ bytesOf32 v ++ [cks]

/-! ### Report frames (R73) -/

/-- The bytes of a report frame (R59, R73). -/
def reportBytes (P : RawParams) (v : Variant) (body : Bytes) (cks : Byte) : Bytes :=
  [0xFF#8, 0x55#8, P.reportTag, Machine.deviceByte v] ++ body ++ [cks]

/-- The report instruction of a variant. -/
def reportInstr (v : Variant) (body : Bytes) (cks : Byte) : Instr :=
  match v with
  | .ac => .reportAc body cks
  | .dc => .reportDc body cks
  | .usb => .reportUsb body cks

/-- A report frame's bytes from index 3 on by the row they have the form of (R73, R74). -/
def decodeReport (P : RawParams) (dev : Byte) (rest : Bytes) : Except DecodeRefusal Instr :=
  match Machine.dispatch dev with
  | none => .error .unknownDevice
  | some v =>
    if rest.length + 4 = Machine.reportLen P v then .ok (reportInstr v rest.dropLast (rest.getLastD 0x00#8))
    else .error .wrongLength

/-! ### The decoder and the encoder -/

/-- The instruction a byte sequence has the form of (R74), for the instantiation `P`. -/
def decode (P : RawParams) (f : Bytes) : Except DecodeRefusal Instr :=
  match f with
  | h0 :: h1 :: tag :: dev :: rest =>
    if h0 = 0xFF#8 ∧ h1 = 0x55#8 then
      if tag = 0x11#8 then
        match rest with
        | [opc, b3, b2, b1, b0, cks] => decodeCommand dev opc (word32Of b3 b2 b1 b0) cks
        | _ => .error .wrongLength
      else if tag = P.reportTag then decodeReport P dev rest
      else .error .unknownTag
    else if f.length = portWordLen then decodePort f
    else .error .noFormat
  | _ => .error .noFormat

/-- The words of a well-formed instruction, from the same tables (R72, R73, R77, R79). -/
def encode (P : RawParams) : Instr → Bytes
  | .clear => portWord 0x08#8 0x00#8 false 0#4 0x00#8 0#32
  | .flush => portWord 0x04#8 0x00#8 false 0#4 0x00#8 0#32
  | .feed data last => portWord 0x02#8 data last 0#4 0x00#8 0#32
  | .encode op dev arg => portWord 0x01#8 0x00#8 false op dev arg
  | .resetWh dev cks => commandBytes dev 0x01#8 0#32 cks
  | .resetAh dev cks => commandBytes dev 0x02#8 0#32 cks
  | .resetDuration dev cks => commandBytes dev 0x03#8 0#32 cks
  | .resetAll dev cks => commandBytes dev 0x05#8 0#32 cks
  | .setBacklightTime dev arg cks => commandBytes dev 0x21#8 arg cks
  | .setPrice dev arg cks => commandBytes dev 0x22#8 arg cks
  | .setup dev cks => commandBytes dev 0x31#8 0#32 cks
  | .enter dev cks => commandBytes dev 0x32#8 0#32 cks
  | .setPlus dev cks => commandBytes dev 0x33#8 0#32 cks
  | .setPlusUsb cks => commandBytes 0x03#8 0x11#8 0#32 cks
  | .setMinus dev cks => commandBytes dev 0x34#8 0#32 cks
  | .setMinusUsb cks => commandBytes 0x03#8 0x12#8 0#32 cks
  | .reportAc body cks => reportBytes P .ac body cks
  | .reportDc body cks => reportBytes P .dc body cks
  | .reportUsb body cks => reportBytes P .usb body cks

/-! ### The words of spec/opcode_table.json -/

/-- The bits of a command frame; a shorter word is a port word (log entry 16). -/
def cmdBits : Nat := 80

/-- The bytes of a word of the opcode table. A frame is ONE word of all its bits with byte 0 most significant (R74);
a PORT row's word is the strobe pattern, and the operand ports that the table gives no bits follow as zeros. -/
def tableBytes (nbits w : Nat) : Bytes :=
  if nbits < cmdBits then leBytes portWordLen w else beBytes (nbits / 8) w

/-- The instruction the decoder reads from a word of the opcode table, at the default instantiation (the table is
written for it: `REPORT_TAG` 0x01, `REPORT_LEN` 36). -/
def decodeTableWord (nbits w : Nat) : Option Instr :=
  match decode Machine.rawDefault (tableBytes nbits w) with
  | .ok i => some i
  | .error _ => none

/-- The request-side encoding of a command kind: `enc_op`, `enc_dev`, `enc_arg` (R70, R78); none for an instruction
that is no command kind. -/
def requestOf : Instr → Option (BitVec 4 × Byte × Word32)
  | .clear => none
  | .flush => none
  | .feed _ _ => none
  | .encode _ _ _ => none
  | .resetWh dev _ => some (0#4, dev, 0#32)
  | .resetAh dev _ => some (1#4, dev, 0#32)
  | .resetDuration dev _ => some (2#4, dev, 0#32)
  | .resetAll dev _ => some (3#4, dev, 0#32)
  | .setBacklightTime dev arg _ => some (4#4, dev, arg)
  | .setPrice dev arg _ => some (5#4, dev, arg)
  | .setup dev _ => some (6#4, dev, 0#32)
  | .enter dev _ => some (7#4, dev, 0#32)
  | .setPlus dev _ => some (8#4, dev, 0#32)
  | .setPlusUsb _ => some (8#4, 0x03#8, 0#32)
  | .setMinus dev _ => some (9#4, dev, 0#32)
  | .setMinusUsb _ => some (9#4, 0x03#8, 0#32)
  | .reportAc _ _ => none
  | .reportDc _ _ => none
  | .reportUsb _ _ => none

end Sys2Proof
end

