-- ==== Sys2Proof/Machine/State.lean ====
section
/-! DEFINITION. What the machine is: its outputs (failures, readings, events), its state, how a step can stop, and the
state after reset (10_state.md). -/

namespace Sys2Proof.Machine

/-! ### Outputs -/

/-- The closed set of failure kinds (R220). A failure is an output event of one operation; it stops nothing (R232). -/
inductive FailureKind where
  /-- R221: by DECODE, on overflow, short or headerless input, or a length that is not the variant's -/
  | malformedFrame
  /-- R222: by VALIDATE -/
  | checksumMismatch
  /-- R223: by VALIDATE -/
  | unexpectedMessageType
  /-- R224: by DECODE -/
  | unknownDeviceType
  /-- R225: by ENCODE -/
  | invalidOperation
deriving DecidableEq, Repr

/-- A duration: the numbers read and the display string, ASCII bytes (R107, R111, R174). -/
structure Duration where
  h : Nat
  m : Nat
  s : Nat
  str : Bytes
deriving DecidableEq, Repr

/-- The AC Reading (R161, R177). -/
structure AcReading where
  voltageMv : Nat
  currentMa : Nat
  powerMw : Nat
  energyMwh : Nat
  priceC : Nat
  freqDhz : Nat
  pfMilli : Nat
  tempC : Nat
  dur : Duration
  blRaw : Byte
  blClass : BlClass
  co2 : Nat
  feeMant : Nat
  feeExp : Int
deriving DecidableEq, Repr

/-- The DC Reading (R166, R177). -/
structure DcReading where
  voltageMv : Nat
  currentMa : Nat
  energyMwh : Nat
  priceC : Nat
  tempC : Nat
  dur : Duration
  blRaw : Byte
  blClass : BlClass
  powerMant : Nat
  powerExp : Int
  co2 : Nat
  feeMant : Nat
  feeExp : Int
deriving DecidableEq, Repr

/-- An exact derived value in the form of R159: mant times 10 to the power exp. -/
structure Decimal where
  mant : Nat
  exp : Int
deriving DecidableEq, Repr

/-- An exact derived value whose divisor need not be a power of ten: num divided by den (log entry 7). -/
structure Fraction where
  num : Nat
  den : Nat
deriving DecidableEq, Repr

/-- The USB Reading. Its fields are those of the OPEN table `LAYOUT[USB]` (R170): a field the table lacks does not exist,
which is none here. With the default table it has exactly the USB fields of R177: no price, fee or co2 (R171, C9). -/
structure UsbReading where
  voltageMv : Option Nat
  currentMa : Option Nat
  powerMw : Option Nat
  energyMwh : Option Nat
  priceC : Option Nat
  freqDhz : Option Nat
  pfMilli : Option Nat
  dminusMv : Option Nat
  dplusMv : Option Nat
  chargeMah : Option Nat
  tempC : Option Nat
  dur : Option Duration
  blRaw : Option Byte
  blClass : Option BlClass
  /-- the further fields of the table, in its order -/
  extra : List Nat
  /-- `rd_power_mant` and `rd_power_exp` -/
  derivedPower : Option Decimal
  co2 : Option Nat
  fee : Option Fraction
deriving DecidableEq, Repr

/-- A Reading: a tagged union with one record per variant (R177). -/
inductive Reading where
  | ac (r : AcReading)
  | dc (r : DcReading)
  | usb (r : UsbReading)
deriving DecidableEq, Repr

/-- An output event (R31, R32, R33). -/
inductive Event where
  /-- FRAME: a byte sequence left the reassembler, with `frm_ovf` (R122) -/
  | frame (bytes : Bytes) (ovf : Bool)
  /-- READING: the frame before it decoded (R178) -/
  | reading (r : Reading)
  /-- FAILURE: the frame before it, or the request of the step, failed (R220) -/
  | failure (k : FailureKind)
  /-- ENCODED: a command frame was produced (R190) -/
  | encoded (bytes : Bytes)
deriving DecidableEq, Repr

/-! ### State -/

/-- The ReassemblyState (R20, R22): the block's one mutable entity. Its bytes are the memory of this machine, R28 (a):
a byte sequence, index 0 first; no byte exists at an index of `buf.length` or more (R251; log entry 22). -/
structure ReassemblyState where
  buf : Bytes
  ovf : Bool
deriving DecidableEq, Repr

/-- The chunk-position counter `cpos` (R23): 0 between chunks, 1 one byte of the chunk seen, 2 two or more. -/
inductive ChunkPos where
  /-- 0 -/
  | between
  /-- 1 -/
  | one
  /-- 2 -/
  | more
deriving DecidableEq, Repr

/-- The state of the machine. `rsm`, `cpos` and `hold` are the spec's; the others are the model's own: the input
ports, the output ports, the parameters (R34). -/
structure State where
  /-- `buf` and `ovf` (R20, R22) -/
  rsm : ReassemblyState
  /-- `cpos` (R23) -/
  cpos : ChunkPos
  /-- `hold` (R23), meaningful while `cpos = 1` -/
  hold : Byte
  /-- level of the input `co2f_sel` in the current beat (R25; log entry 13) -/
  co2fSel : Bool
  /-- level of the input `co2f_ppm` in the current beat (R25; log entry 13) -/
  co2fPpm : Word32
  /-- the beats the host is about to present, next first (R30; log entry 10) -/
  inputs : List Beat
  /-- the output events of the last step, oldest first; not held (R31; log entry 23) -/
  out : List Event
  /-- the parameters of this instantiation; no step writes them (R8, R34, R63; log entry 1) -/
  par : Params
deriving DecidableEq, Repr

/-! ### How a step can stop -/

/-- Faults: none. No rule of the spec stops the block: every failure is an output event after which it goes on (R232,
R234), nothing is stuck (93_implementation_defined.md), and a read past the end of a frame, the only access fault, is
made impossible by the exact-length test (R53, R157). Log entry 20. -/
inductive Fault where
deriving DecidableEq, Repr

/-- Refusals: the inputs to which the spec gives no behaviour. -/
inductive Refusal where
  /-- Raised by exec's arm of an instruction that has no meaning yet. Safe: nothing can be proved of a run past it. -/
  | notModelled (mnemonic : String)
  /-- Raised by CLEAR and FLUSH while a chunk is in progress (R262, D32, U12): the spec says the model refuses it.
  Safe (toward unprovable). -/
  | strobeInsideChunk
  /-- Raised by the transaction FEED of an empty chunk (R126, D4, U11): the spec says it is refused. Safe (toward
  unprovable). -/
  | emptyChunk
deriving DecidableEq, Repr

/-! ### Reset -/

/-- The reassembly state after reset and after CLEAR (R36, R251, R252). -/
def emptyRsm : ReassemblyState := ⟨[], false⟩

/-- The state after reset (R36, R251). `hold`, the input levels and the parameters have no reset value in the spec:
log entries 1, 12, 13. -/
def State.reset : State where
  rsm := emptyRsm
  cpos := .between
  hold := 0x00#8
  co2fSel := false
  co2fPpm := 0#32
  inputs := []
  out := []
  par := defaultParams

end Sys2Proof.Machine
end

