-- ==== Sys2Proof/Machine/Operands.lean ====
section
/-! DEFINITION. The primitive codecs (40_primitives.md): reading the fields of a frame, writing a value, clamping,
rounding, rendering. All are pure. -/

namespace Sys2Proof.Machine

/-! ### Readers (R11, R100 to R103) -/

/-- `f[i]`; past the end, where the spec defines no value, a free value (R11, U17; log entry 14). -/
def byteAt (f : Bytes) (i : Nat) : Byte := f.getD i (Config.pastEnd i)

/-- `MemRead(f, off, n)` (R11): n bytes from `off`, big-endian, unsigned. -/
def memRead (f : Bytes) (off : Nat) : Nat → Nat
  | 0 => 0
  | n + 1 => memRead f off n * 256 + (byteAt f (off + n)).toNat

/-- `U8` (R100). -/
def u8 (f : Bytes) (off : Nat) : Nat := (byteAt f off).toNat

/-- `U16BE` (R101). -/
def u16be (f : Bytes) (off : Nat) : Nat :=
  (byteAt f off).toNat * 256 + (byteAt f (off + 1)).toNat

/-- `U24BE` (R102). -/
def u24be (f : Bytes) (off : Nat) : Nat :=
  (byteAt f off).toNat * 65536 + (byteAt f (off + 1)).toNat * 256 + (byteAt f (off + 2)).toNat

/-- `U32BE` (R103). -/
def u32be (f : Bytes) (off : Nat) : Nat :=
  (byteAt f off).toNat * 16777216 + (byteAt f (off + 1)).toNat * 65536 + (byteAt f (off + 2)).toNat * 256 +
    (byteAt f (off + 3)).toNat

/-- The raw value of a field: the bytes its descriptor names (R159). -/
def rawField (f : Bytes) (d : Desc) : Nat := memRead f d.off d.n

/-- The scaled value of a field: raw times multiplier, exact (R109, R159). -/
def field (f : Bytes) (d : Desc) : Nat := rawField f d * d.mult

/-! ### Writers (R11, R104) -/

/-- `PUT32BE` (R104): four bytes, most significant first. -/
def put32be (v : Word32) : Bytes := bytesOf32 v

/-- `MemWrite(f, off, n, v)` (R11): `f` with bytes `off .. off+n-1` the big-endian representation of `v`. -/
def memWrite (f : Bytes) (off : Nat) : Nat → Nat → Bytes
  | 0, _ => f
  | n + 1, v => (memWrite f off n (v / 256)).set (off + n) (BitVec.ofNat 8 v)

/-! ### Arithmetic (R105, R106) -/

/-- `clamp` (R105), on mathematical integers: the comparison is signed. -/
def clamp (x lo hi : Int) : Int := if x < lo then lo else if hi < x then hi else x

/-- `round_half_up(a / b)` (R106). -/
def roundHalfUp (a b : Nat) : Nat := (2 * a + b) / (2 * b)

/-- The value of a command from its value mode and argument (R75, R190, R192). -/
def valueOf (mode : ValueMode) (arg : Word32) : Word32 :=
  match mode with
  | .zero => 0#32
  | .clampBl => BitVec.ofInt 32 (clamp arg.toInt 0 60)
  | .clampPrice => BitVec.ofInt 32 (clamp arg.toInt 1 999999)

/-- The co2 factor a decode uses, in parts per million (R25, R173). -/
def selectCo2f (sel : Bool) (ppm : Word32) : Nat :=
  if sel then ppm.toNat else Config.co2fDefault.toNat

/-- co2 (R162): energy in mWh times the factor in parts per million, rounded half up. -/
def co2Of (energyMwh co2f : Nat) : Nat := roundHalfUp (energyMwh * co2f) 1000000

/-! ### Renderings (R107, R108, R110, R111) -/

/-- The ASCII digit of a number below 10 (R110). -/
def digit (d : Nat) : Byte := BitVec.ofNat 8 (0x30 + d)

/-- The decimal digits of `n` in front of `acc`; `fuel` bounds their number. -/
def decDigits : Nat → Nat → Bytes → Bytes
  | 0, _, acc => acc
  | fuel + 1, n, acc =>
    if n / 10 = 0 then digit (n % 10) :: acc else decDigits fuel (n / 10) (digit (n % 10) :: acc)

/-- `DEC(n)` (R110): the shortest decimal rendering. -/
def dec (n : Nat) : Bytes := decDigits (n + 1) n []

/-- `DECPAD(n, w)` (R110): zeros on the left up to width w; never truncated. -/
def decPad (n w : Nat) : Bytes := List.replicate (w - (dec n).length) 0x30#8 ++ dec n

/-- `FMTDUR(h, m, s)` (R107): no range check, no normalisation. -/
def fmtDur (h m s : Nat) : Bytes :=
  decPad h 3 ++ [0x3A#8] ++ decPad m 2 ++ [0x3A#8] ++ decPad s 2

/-- `BLCLASS(b)` (R108). -/
def classifyBl (b : Byte) : BlClass :=
  if b = 0#8 then .off else if b = 60#8 then .on else .seconds b

/-- The label of a class (R108): the spec gives a text for SECONDS only; the two steady texts are the host's (N13). -/
def blLabel : BlClass → Option Bytes
  | .off => none
  | .on => none
  | .seconds b => some (dec b.toNat ++ [0x20#8, 0x73#8, 0x65#8, 0x63#8])

/-- The duration field at offset `od` (R174). -/
def durationAt (f : Bytes) (od : Nat) : Duration where
  h := u16be f od
  m := u8 f (od + 2)
  s := u8 f (od + 3)
  str := fmtDur (u16be f od) (u8 f (od + 2)) (u8 f (od + 3))

end Sys2Proof.Machine
end

