-- ==== Sys2Proof/Machine/Checksum.lean ====
section
/-! DEFINITION. The Checksum and Validator (42_checksum_validator.md). -/

namespace Sys2Proof.Machine

/-- The default instantiation of `CK` (R141): the sum modulo 256 of the bytes after the first two, xor `CK_XOR`. -/
def ckFitted (b : Bytes) : Byte := (b.drop 2).foldl (fun s x => s + x) 0x00#8 ^^^ ckXor

/-- The twelve rows of property `CK_VECTORS` (R142): the first nine bytes of each reference frame and the tenth. -/
def ckVectors : List (Bytes × Byte) :=
  [ ([0xFF#8, 0x55#8, 0x11#8, 0x01#8, 0x01#8, 0x00#8, 0x00#8, 0x00#8, 0x00#8], 0x57#8),
    ([0xFF#8, 0x55#8, 0x11#8, 0x01#8, 0x02#8, 0x00#8, 0x00#8, 0x00#8, 0x00#8], 0x50#8),
    ([0xFF#8, 0x55#8, 0x11#8, 0x01#8, 0x03#8, 0x00#8, 0x00#8, 0x00#8, 0x00#8], 0x51#8),
    ([0xFF#8, 0x55#8, 0x11#8, 0x01#8, 0x05#8, 0x00#8, 0x00#8, 0x00#8, 0x00#8], 0x53#8),
    ([0xFF#8, 0x55#8, 0x11#8, 0x01#8, 0x21#8, 0x00#8, 0x00#8, 0x00#8, 0x01#8], 0x70#8),
    ([0xFF#8, 0x55#8, 0x11#8, 0x01#8, 0x22#8, 0x00#8, 0x00#8, 0x00#8, 0x01#8], 0x71#8),
    ([0xFF#8, 0x55#8, 0x11#8, 0x01#8, 0x31#8, 0x00#8, 0x00#8, 0x00#8, 0x00#8], 0x07#8),
    ([0xFF#8, 0x55#8, 0x11#8, 0x01#8, 0x32#8, 0x00#8, 0x00#8, 0x00#8, 0x00#8], 0x00#8),
    ([0xFF#8, 0x55#8, 0x11#8, 0x03#8, 0x11#8, 0x00#8, 0x00#8, 0x00#8, 0x00#8], 0x61#8),
    ([0xFF#8, 0x55#8, 0x11#8, 0x03#8, 0x12#8, 0x00#8, 0x00#8, 0x00#8, 0x00#8], 0x62#8),
    ([0xFF#8, 0x55#8, 0x11#8, 0x01#8, 0x33#8, 0x00#8, 0x00#8, 0x00#8, 0x00#8], 0x01#8),
    ([0xFF#8, 0x55#8, 0x11#8, 0x01#8, 0x34#8, 0x00#8, 0x00#8, 0x00#8, 0x00#8], 0x02#8) ]

/-- A function has the property `CK_VECTORS` (R142). -/
def vectorsHold (f : Bytes → Byte) : Bool := ckVectors.all (fun r => f r.1 == r.2)

/-- `CK` of an instantiation: the fitted default, or another function that has the property `CK_VECTORS`. A function
that fails it is no admissible `CK` (R142, U19) and is replaced by the default, so that every selector denotes an
admissible one (log entry 2). -/
def ck (c : CkSel) (b : Bytes) : Byte :=
  match c with
  | .fitted => ckFitted b
  | .other n => if vectorsHold (Config.freeCk n) then Config.freeCk n b else ckFitted b

/-- `VALIDATE(frame, expectedType)` (R143, R144): the failure it raises, none for ok. Defined for at least three bytes
(U17). -/
def validate (P : RawParams) (f : Bytes) (t : MsgType) : Option FailureKind :=
  if byteAt f (f.length - 1) ≠ ck P.ck f.dropLast then some .checksumMismatch
  else if byteAt f 2 ≠ tagOf P t then some .unexpectedMessageType
  else none

end Sys2Proof.Machine
end

