-- ==== Sys2Proof/Machine/Flags.lean ====
section
/-! DEFINITION. The status the block reports and the one flag it keeps (10_state.md R22, R24): codes of failures,
variants and backlight classes, and how a byte stored in the buffer changes `ovf`. -/

namespace Sys2Proof.Machine

/-- `err_code` (R24, R220, D27): 0 for none. -/
def errCode : Option FailureKind → BitVec 3
  | none => 0#3
  | some .malformedFrame => 1#3
  | some .checksumMismatch => 2#3
  | some .unexpectedMessageType => 3#3
  | some .unknownDeviceType => 4#3
  | some .invalidOperation => 5#3

/-- `rd_variant` (R31, R177). -/
def variantCode : Reading → BitVec 2
  | .ac _ => 1#2
  | .dc _ => 2#2
  | .usb _ => 3#2

/-- `rd_bl_class` (R108). -/
def blClassCode : BlClass → BitVec 2
  | .off => 0#2
  | .on => 1#2
  | .seconds _ => 2#2

/-- `ovf` after bytes are offered to a buffer with `room` free places: set when some do not fit, else kept (R22, R127). -/
def ovfAfter (ovf : Bool) (room offered : Nat) : Bool := ovf || decide (room < offered)

/-- `frm_len` is this many bits wide, ceil(log2(BUF_CAP + 1)) (R31), which is floor(log2(BUF_CAP)) + 1. -/
def frmLenWidth (cap : Nat) : Nat := Nat.log2 cap + 1

end Sys2Proof.Machine
end

