-- ==== Sys2Proof/Machine/Ops.lean ====
section
/-! DEFINITION. The named operations over the state: reading and storing bytes of the reassembly buffer, the output of
events, what the block does when a failure is raised (60_exceptions.md R232), reset. -/

namespace Sys2Proof.Machine

/-! ### The reassembly buffer (R20, R28 (a)) -/

/-- Byte `i` of the buffer; none where the buffer has no byte (R20, R251). -/
def ReassemblyState.readByte (r : ReassemblyState) (i : Nat) : Option Byte := r.buf[i]?

/-- `empty` (R21). -/
def ReassemblyState.isEmpty (r : ReassemblyState) : Bool := r.buf.isEmpty

/-- The form every reassembly state of capacity `cap` keeps (R35 (i), (ii)). -/
def ReassemblyState.wf (cap : Nat) (r : ReassemblyState) : Bool :=
  decide (r.buf.length ≤ cap) && (!r.ovf || decide (r.buf.length = cap))

/-- `STORE(c)` (R123, R127): the bytes that fit are appended, the others dropped and flagged. -/
def store (cap : Nat) (c : Bytes) (r : ReassemblyState) : ReassemblyState where
  buf := r.buf ++ c.take (cap - r.buf.length)
  ovf := ovfAfter r.ovf (cap - r.buf.length) c.length

/-- `APPEND(x)` (R132). -/
def append (cap : Nat) (x : Byte) (r : ReassemblyState) : ReassemblyState :=
  if r.buf.length < cap then { r with buf := r.buf ++ [x] } else { r with ovf := true }

/-- The header-leading predicate (R121). -/
def hdrLead (c : Bytes) : Bool :=
  match c with
  | b0 :: b1 :: _ => decide (b0 = hdr0) && decide (b1 = hdr1)
  | _ => false

/-! ### Updates of the state -/

/-- Output events, in order (R31, R33). -/
def State.emit (s : State) (evs : List Event) : State := { s with out := s.out ++ evs }

/-- Replace the reassembly state. -/
def State.setRsm (s : State) (r : ReassemblyState) : State := { s with rsm := r }

/-- Move the chunk position. -/
def State.setCpos (s : State) (c : ChunkPos) : State := { s with cpos := c }

/-- Hold the first byte of a chunk (R131). -/
def State.setHold (s : State) (b : Byte) : State := { s with hold := b }

/-- `APPEND(x)` on the machine's buffer (R132). -/
def State.append (s : State) (x : Byte) : State := s.setRsm (Machine.append s.par.raw.bufCap x s.rsm)

/-- The co2 factor of a decode in this beat (R25, R173). -/
def State.co2f (s : State) : Nat := selectCo2f s.co2fSel s.co2fPpm

/-- Take the next beat: its configuration inputs are the levels of this step, and the outputs of the step before are
gone (R25, R31). -/
def State.takeBeat (s : State) (b : Beat) (rest : List Beat) : State :=
  { s with co2fSel := b.co2fSel, co2fPpm := b.co2fPpm, inputs := rest, out := [] }

/-- A step in which the host presents nothing (R77, R238): only the outputs of the step before are gone. -/
def State.idle (s : State) : State := { s with out := [] }

/-! ### Failures (R232 to R235) -/

/-- Raise a failure: the operation's one FAILURE event is produced and nothing else happens: no state is saved, no
mode changes, control goes nowhere (R232, R233). There is nothing to return from (R234): the next operation runs from
the state as it is. -/
def State.raise (s : State) (k : FailureKind) : State := s.emit [.failure k]

/-! ### Reset (R250 to R253) -/

/-- The one reset, at any time (R250, R252): `buf`, `ovf` and `cpos` at their reset values, no event (R253). `hold` is
unspecified after reset (R251); the inputs and parameters are not the reset's to change (log entry 25). -/
def State.resetNow (s : State) : State :=
  { s with rsm := emptyRsm, cpos := .between, hold := State.reset.hold, out := [] }

end Sys2Proof.Machine
end

