-- ==== Sys2Proof/Machine/Encoder.lean ====
section
/-! DEFINITION. The Command Encoder (44_command_encoder.md): ASSEMBLE, the meaning of ENCODE and of the twelve command
frame kinds. None reads or writes the reassembly state (R206). -/

namespace Sys2Proof.Machine

/-- The nine bytes of a command frame before its checksum (R194). -/
def commandHead (dev opc : Byte) (val : Word32) : Bytes := [hdr0, hdr1, cmdTag, dev, opc] ++ put32be val

/-- `ASSEMBLE(dev, opc, val)` (R194). -/
def assemble (P : RawParams) (dev opc : Byte) (val : Word32) : Bytes :=
  commandHead dev opc val ++ [ck P.ck (commandHead dev opc val)]

/-- A valid frame: its last byte is `CK` of the bytes before it (R74). -/
def frameValid (P : RawParams) (f : Bytes) : Bool := decide (byteAt f (f.length - 1) = ck P.ck f.dropLast)

/-- The event of one of the ten operations for a device type and an argument (R190, R193): the assembled frame, or
InvalidOperation for a device type that is none. -/
def commandEvent (P : RawParams) (op : EncOp) (dev : Byte) (arg : Word32) : Event :=
  if (dispatch dev).isNone then .failure .invalidOperation
  else .encoded (assemble P dev (opcodeRom op (dev == deviceByte .usb)).1
    (valueOf (opcodeRom op (dev == deviceByte .usb)).2 arg))

/-- The event of ENCODE (R190): a selector above 9 is InvalidOperation too (R193). -/
def encodeEvent (P : RawParams) (op : BitVec 4) (dev : Byte) (arg : Word32) : Event :=
  match encOpOf op with
  | none => .failure .invalidOperation
  | some o => commandEvent P o dev arg

/-- Run an operation: its one event, nothing else (R190, R206). -/
def State.runCommand (s : State) (op : EncOp) (dev : Byte) (arg : Word32) : State :=
  s.emit [commandEvent s.par.raw op dev arg]

/-- ENCODE (R190). -/
def execEncode (op : BitVec 4) (dev : Byte) (arg : Word32) (s : State) : Host.Outcome State Fault Refusal :=
  .next (s.emit [encodeEvent s.par.raw op dev arg])

/-- resetWh (R195). -/
def execResetWh (dev : Byte) (s : State) : Host.Outcome State Fault Refusal :=
  .next (s.runCommand .resetWh dev 0#32)

/-- resetAh (R196). -/
def execResetAh (dev : Byte) (s : State) : Host.Outcome State Fault Refusal :=
  .next (s.runCommand .resetAh dev 0#32)

/-- resetDuration (R197). -/
def execResetDuration (dev : Byte) (s : State) : Host.Outcome State Fault Refusal :=
  .next (s.runCommand .resetDuration dev 0#32)

/-- resetAll (R198). -/
def execResetAll (dev : Byte) (s : State) : Host.Outcome State Fault Refusal :=
  .next (s.runCommand .resetAll dev 0#32)

/-- setBacklightTime (R199): the argument is clamped to 0..60, signed. -/
def execSetBacklightTime (dev : Byte) (arg : Word32) (s : State) : Host.Outcome State Fault Refusal :=
  .next (s.runCommand .setBacklightTime dev arg)

/-- setPrice (R200): the argument is clamped to 1..999999, signed. -/
def execSetPrice (dev : Byte) (arg : Word32) (s : State) : Host.Outcome State Fault Refusal :=
  .next (s.runCommand .setPrice dev arg)

/-- setup (R201). -/
def execSetup (dev : Byte) (s : State) : Host.Outcome State Fault Refusal :=
  .next (s.runCommand .setup dev 0#32)

/-- enter (R202). -/
def execEnter (dev : Byte) (s : State) : Host.Outcome State Fault Refusal :=
  .next (s.runCommand .enter dev 0#32)

/-- setPlus (R203). -/
def execSetPlus (dev : Byte) (s : State) : Host.Outcome State Fault Refusal :=
  .next (s.runCommand .setPlus dev 0#32)

/-- setPlus for device type 3 (R203): opcode 0x11. -/
def execSetPlusUsb (s : State) : Host.Outcome State Fault Refusal :=
  .next (s.runCommand .setPlus (deviceByte .usb) 0#32)

/-- setMinus (R204). -/
def execSetMinus (dev : Byte) (s : State) : Host.Outcome State Fault Refusal :=
  .next (s.runCommand .setMinus dev 0#32)

/-- setMinus for device type 3 (R204): opcode 0x12. -/
def execSetMinusUsb (s : State) : Host.Outcome State Fault Refusal :=
  .next (s.runCommand .setMinus (deviceByte .usb) 0#32)

end Sys2Proof.Machine
end

