-- ==== Sys2Proof/Machine/PacketDecoder.lean ====
section
/-! DEFINITION. The Packet Decoder with device-variant dispatch (43_packet_decoder.md) and the meanings of the three
report frame kinds. -/

namespace Sys2Proof.Machine

/-! ### The three device decoders

That `f[3]` is the variant's own byte (R158) is their precondition: DECODE's dispatch discharges it. -/

/-- DEC_AC (R161, R162, R163). -/
def decAc (P : RawParams) (f : Bytes) (co2f : Nat) : Except FailureKind Reading :=
  if f.length ≠ reportLen P .ac then .error .malformedFrame
  else .ok (.ac {
    voltageMv := field f layoutAc.voltage
    currentMa := field f layoutAc.current
    powerMw := field f layoutAc.power
    energyMwh := field f layoutAc.energy
    priceC := field f layoutAc.price
    freqDhz := field f layoutAc.freq
    pfMilli := field f layoutAc.pf
    tempC := field f layoutAc.temp
    dur := durationAt f layoutAc.durOff
    blRaw := byteAt f layoutAc.blOff
    blClass := classifyBl (byteAt f layoutAc.blOff)
    co2 := co2Of (field f layoutAc.energy) co2f
    feeMant := rawField f layoutAc.energy * rawField f layoutAc.price
    feeExp := -1 })

/-- DEC_DC (R166, R162, R167, R168). -/
def decDc (P : RawParams) (f : Bytes) (co2f : Nat) : Except FailureKind Reading :=
  if f.length ≠ reportLen P .dc then .error .malformedFrame
  else .ok (.dc {
    voltageMv := field f layoutDc.voltage
    currentMa := field f layoutDc.current
    energyMwh := field f layoutDc.energy
    priceC := field f layoutDc.price
    tempC := field f layoutDc.temp
    dur := durationAt f layoutDc.durOff
    blRaw := byteAt f layoutDc.blOff
    blClass := classifyBl (byteAt f layoutDc.blOff)
    powerMant := rawField f layoutDc.voltage * rawField f layoutDc.current
    powerExp := -1
    co2 := co2Of (field f layoutDc.energy) co2f
    feeMant := rawField f layoutDc.energy * rawField f layoutDc.price
    feeExp := -7 })

/-- voltage × current / 1000 of two fields, exact (R167, R172): in tenths where the product of the two multipliers is a
multiple of 100, as the default's is, else in thousandths. DESIGN CHOICE: that form (log entry 7). -/
def powerOf (f : Bytes) (v c : Desc) : Decimal :=
  if v.mult * c.mult % 100 = 0 then ⟨rawField f v * rawField f c * (v.mult * c.mult / 100), -1⟩
  else ⟨rawField f v * rawField f c * (v.mult * c.mult), -3⟩

/-- The derived power of USB (R172), where the table derives one and has the two fields. -/
def usbPower (l : UsbLayout) (f : Bytes) : Option Decimal :=
  if l.derivesPower then l.voltage.bind (fun v => l.current.map (powerOf f v)) else none

/-- The co2 of USB by the rule of AC and DC (R162, C9), where the table derives one and has the energy. -/
def usbCo2 (l : UsbLayout) (f : Bytes) (co2f : Nat) : Option Nat :=
  if l.derivesCo2 then l.energy.map (fun e => co2Of (field f e) co2f) else none

/-- The fee of USB, energy × price / D with the price in hundredths (R163, R168, C9), where the table supplies D and has
the two fields. -/
def usbFee (l : UsbLayout) (f : Bytes) : Option Fraction :=
  if l.feeDiv = 0 then none
  else l.energy.bind (fun e => l.price.map (fun p => ⟨field f e * field f p, 100 * l.feeDiv⟩))

/-- DEC_USB, for any instance of the OPEN table (R170): every field by R159, R174, R175; the default's is R171. The
co2 factor is read only where the table derives a co2. -/
def decUsb (P : RawParams) (f : Bytes) (co2f : Nat) : Except FailureKind Reading :=
  if f.length ≠ reportLen P .usb then .error .malformedFrame
  else .ok (.usb {
    voltageMv := P.layoutUsb.voltage.map (field f)
    currentMa := P.layoutUsb.current.map (field f)
    powerMw := P.layoutUsb.power.map (field f)
    energyMwh := P.layoutUsb.energy.map (field f)
    priceC := P.layoutUsb.price.map (field f)
    freqDhz := P.layoutUsb.freq.map (field f)
    pfMilli := P.layoutUsb.pf.map (field f)
    dminusMv := P.layoutUsb.dminus.map (field f)
    dplusMv := P.layoutUsb.dplus.map (field f)
    chargeMah := P.layoutUsb.charge.map (field f)
    tempC := P.layoutUsb.temp.map (field f)
    dur := P.layoutUsb.durOff.map (durationAt f)
    blRaw := P.layoutUsb.blOff.map (byteAt f)
    blClass := P.layoutUsb.blOff.map (fun o => classifyBl (byteAt f o))
    extra := P.layoutUsb.extra.map (field f)
    derivedPower := usbPower P.layoutUsb f
    co2 := usbCo2 P.layoutUsb f co2f
    fee := usbFee P.layoutUsb f })

/-! ### DECODE -/

/-- DECODE steps 1 and 2 (R152, R153): length, header, VALIDATE against Report; the failure raised, none for ok. -/
def precheck (P : RawParams) (f : Bytes) : Option FailureKind :=
  if f.length < minFrameLen then some .malformedFrame
  else if byteAt f 0 ≠ hdr0 ∨ byteAt f 1 ≠ hdr1 then some .malformedFrame
  else validate P f .report

/-- The event of a device decoder's result (R178). -/
def eventOf : Except FailureKind Reading → Event
  | .ok r => .reading r
  | .error k => .failure k

/-- DECODE (R150): the checks in their normative order (R230), the dispatch (R155), the device decoder. One event. -/
def decodeFrame (P : RawParams) (f : Bytes) (ovf : Bool) (co2f : Nat) : Event :=
  if ovf then .failure .malformedFrame
  else match precheck P f with
    | some k => .failure k
    | none =>
      match dispatch (byteAt f 3) with
      | some .ac => eventOf (decAc P f co2f)
      | some .dc => eventOf (decDc P f co2f)
      | some .usb => eventOf (decUsb P f co2f)
      | none => .failure .unknownDeviceType

/-- What the receive path does with a frame of a kind whose device decoder gives `r`: the checks of DECODE before the
dispatch, then that decoder. -/
def State.decodeAs (s : State) (f : Bytes) (r : Except FailureKind Reading) : State :=
  match precheck s.par.raw f with
  | some k => s.raise k
  | none => s.emit [eventOf r]

/-! ### The meanings of the report frame kinds (log entry 19) -/

/-- REPORT_AC (R161): the frame goes through DECODE and, if the checks pass, DEC_AC. -/
def execReportAc (body : Bytes) (cks : Byte) (s : State) : Host.Outcome State Fault Refusal :=
  .next (s.decodeAs (reportBytes s.par.raw .ac body cks)
    (decAc s.par.raw (reportBytes s.par.raw .ac body cks) s.co2f))

/-- REPORT_DC (R166): the frame goes through DECODE and, if the checks pass, DEC_DC. -/
def execReportDc (body : Bytes) (cks : Byte) (s : State) : Host.Outcome State Fault Refusal :=
  .next (s.decodeAs (reportBytes s.par.raw .dc body cks)
    (decDc s.par.raw (reportBytes s.par.raw .dc body cks) s.co2f))

/-- REPORT_USB (R171): the frame goes through DECODE and, if the checks pass, DEC_USB. -/
def execReportUsb (body : Bytes) (cks : Byte) (s : State) : Host.Outcome State Fault Refusal :=
  .next (s.decodeAs (reportBytes s.par.raw .usb body cks)
    (decUsb s.par.raw (reportBytes s.par.raw .usb body cks) s.co2f))

end Sys2Proof.Machine
end

