-- ==== Sys2Proof/Machine/Reassembler.lean ====
section
/-! DEFINITION. The Frame Reassembler (41_reassembler.md): the meanings of CLEAR, FLUSH and FEED at the port level
(R131, R132, R231, R262), and FEED of a whole chunk, the transaction of R123. -/

namespace Sys2Proof.Machine

/-- The events of an emission (R122, R178): FRAME with the whole buffer and `ovf`, then the one event of its DECODE;
nothing where the buffer is empty (R21, R123, R124). -/
def pendingEvents (P : RawParams) (co2f : Nat) (r : ReassemblyState) : List Event :=
  if r.isEmpty then [] else [.frame r.buf r.ovf, decodeFrame P r.buf r.ovf co2f]

/-- Emit what is buffered, then empty the buffer (R123, R124). -/
def State.flushPending (s : State) : State :=
  (s.emit (pendingEvents s.par.raw s.co2f s.rsm)).setRsm emptyRsm

/-- A strobe of CLEAR or FLUSH is legal between chunks only (R262). -/
def betweenChunks (s s' : State) : Host.Outcome State Fault Refusal :=
  if s.cpos = .between then .next s' else .refused .strobeInsideChunk

/-- CLEAR (R125): the buffered bytes are dropped without any event. -/
def execClear (s : State) : Host.Outcome State Fault Refusal :=
  betweenChunks s (s.setRsm emptyRsm)

/-- FLUSH (R124). -/
def execFlush (s : State) : Host.Outcome State Fault Refusal :=
  betweenChunks s s.flushPending

/-- `cpos` after a byte that is not the first of its chunk (R132). -/
def afterByte (last : Bool) : ChunkPos := if last then .between else .more

/-- The decision on a chunk's second byte (R131, R132): a header-leading chunk emits what is buffered and replaces it. -/
def State.decideHeader (s : State) (b : Byte) : State :=
  if s.hold = hdr0 ∧ b = hdr1 then s.flushPending else s

/-- FEED, one beat (R132). -/
def execFeed (b : Byte) (last : Bool) (s : State) : Host.Outcome State Fault Refusal :=
  match s.cpos with
  | .between => if last then .next (s.append b) else .next ((s.setHold b).setCpos .one)
  | .one => .next ((((s.decideHeader b).append s.hold).append b).setCpos (afterByte last))
  | .more => .next ((s.append b).setCpos (afterByte last))

/-- FEED(chunk) (R123) on the reassembly state: the state after and the events. `c` is not empty (R126). -/
def feedChunk (P : RawParams) (co2f : Nat) (c : Bytes) (r : ReassemblyState) : ReassemblyState × List Event :=
  if hdrLead c then (store P.bufCap c emptyRsm, pendingEvents P co2f r)
  else (store P.bufCap c r, [])

/-- A chunk as its FEED beats: one byte each, `rx_last` on the last (R30, R77). -/
def feedInstrs : Bytes → List Instr
  | [] => []
  | [b] => [.feed b true]
  | b :: c => .feed b false :: feedInstrs c

end Sys2Proof.Machine
end

