-- ==== Sys2Proof/Machine/Dispatch.lean ====
section
/-! DEFINITION. The meaning of every instruction, one arm per constructor of Instr. -/

namespace Sys2Proof.Machine

def exec (i : Instr) (s : State) : Host.Outcome State Fault Refusal :=
  match i with
  | .clear => Sys2Proof.Machine.execClear s
  | .flush => Sys2Proof.Machine.execFlush s
  | .feed data last => Sys2Proof.Machine.execFeed data last s
  | .encode op dev arg => Sys2Proof.Machine.execEncode op dev arg s
  | .resetWh dev _ => Sys2Proof.Machine.execResetWh dev s
  | .resetAh dev _ => Sys2Proof.Machine.execResetAh dev s
  | .resetDuration dev _ => Sys2Proof.Machine.execResetDuration dev s
  | .resetAll dev _ => Sys2Proof.Machine.execResetAll dev s
  | .setBacklightTime dev arg _ => Sys2Proof.Machine.execSetBacklightTime dev arg s
  | .setPrice dev arg _ => Sys2Proof.Machine.execSetPrice dev arg s
  | .setup dev _ => Sys2Proof.Machine.execSetup dev s
  | .enter dev _ => Sys2Proof.Machine.execEnter dev s
  | .setPlus dev _ => Sys2Proof.Machine.execSetPlus dev s
  | .setPlusUsb _ => Sys2Proof.Machine.execSetPlusUsb s
  | .setMinus dev _ => Sys2Proof.Machine.execSetMinus dev s
  | .setMinusUsb _ => Sys2Proof.Machine.execSetMinusUsb s
  | .reportAc body cks => Sys2Proof.Machine.execReportAc body cks s
  | .reportDc body cks => Sys2Proof.Machine.execReportDc body cks s
  | .reportUsb body cks => Sys2Proof.Machine.execReportUsb body cks s

end Sys2Proof.Machine
end

