-- ==== Sys2Proof/Machine/Transactions.lean ====
section
/-! DEFINITION. The transaction-level machine (10_state.md R33), which is the normative one (D2): a step takes a
reassembly state and one host operation and gives the next state and the events; and host programs (30_encoding.md
R88). The machine of Sys2Proof/Machine/Step.lean is its byte-serial refinement (R133). -/

namespace Sys2Proof.Machine

/-- The host operations of R33. -/
inductive HostOp where
  | feed (chunk : Bytes)
  | flush
  | clear
  | encode (op : BitVec 4) (dev : Byte) (arg : Word32)
deriving DecidableEq, Repr

/-- A line of a host program (R88): one operation, or a setting of the configuration inputs for the lines after it. -/
inductive ProgramLine where
  | op (o : HostOp)
  | co2fDefault
  | co2fPpm (ppm : Word32)
deriving DecidableEq, Repr

/-- One transaction (R33): `co2f` is the factor the configuration inputs select in this step (R25). FEED of an empty
chunk is refused (R126). -/
def transact (P : RawParams) (co2f : Nat) (o : HostOp) (r : ReassemblyState) :
    Host.Outcome (ReassemblyState × List Event) Fault Refusal :=
  match o with
  | .feed [] => .refused .emptyChunk
  | .feed (b :: c) => .next (feedChunk P co2f (b :: c) r)
  | .flush => .next (emptyRsm, pendingEvents P co2f r)
  | .clear => .next (emptyRsm, [])
  | .encode op dev arg => .next (r, [encodeEvent P op dev arg])

/-- Put the events of one operation before those of the operations after it. -/
def afterEvents (evs : List Event) :
    Host.Outcome (ReassemblyState × List Event) Fault Refusal →
      Host.Outcome (ReassemblyState × List Event) Fault Refusal
  | .next (r, evs') => .next (r, evs ++ evs')
  | .fault e => .fault e
  | .refused e => .refused e

/-- A run of a host program (R33, R88) from the given configuration inputs and reassembly state: the state after it and
its events in order. -/
def runProgram (P : RawParams) : List ProgramLine → Bool → Word32 → ReassemblyState →
    Host.Outcome (ReassemblyState × List Event) Fault Refusal
  | [], _, _, r => .next (r, [])
  | .co2fDefault :: ls, _, ppm, r => runProgram P ls false ppm r
  | .co2fPpm w :: ls, _, _, r => runProgram P ls true w r
  | .op o :: ls, sel, ppm, r =>
    match transact P (selectCo2f sel ppm) o r with
    | .next (r', evs) => afterEvents evs (runProgram P ls sel ppm r')
    | .fault e => .fault e
    | .refused e => .refused e

/-- A host operation as the port-level instructions that carry it (R77). -/
def portInstrs : HostOp → List Instr
  | .feed c => feedInstrs c
  | .flush => [.flush]
  | .clear => [.clear]
  | .encode op dev arg => [.encode op dev arg]

/-- A host program as beats (R77): every instruction on a beat of its own, with the configuration inputs of its line. -/
def beatsOfProgram (P : RawParams) : List ProgramLine → Bool → Word32 → List Beat
  | [], _, _ => []
  | .co2fDefault :: ls, _, ppm => beatsOfProgram P ls false ppm
  | .co2fPpm w :: ls, _, _ => beatsOfProgram P ls true w
  | .op o :: ls, sel, ppm =>
    (portInstrs o).map (fun i => beatOfPortWord sel ppm (encode P i)) ++ beatsOfProgram P ls sel ppm

end Sys2Proof.Machine
end

