-- ==== Sys2Proof/Machine/Step.lean ====
section
/-! DEFINITION. One step: the machine takes the next beat and runs the instructions it carries (30_encoding.md R77,
60_exceptions.md R231). There is no program counter and no fetch (R23, R63): the host presents the instructions. -/

namespace Sys2Proof.Machine

/-- Run instructions one after the other, stopping at the first that does not answer a next state (R61, R231). -/
def runInstrs : List Instr → State → Host.Outcome State Fault Refusal
  | [], s => .next s
  | i :: is, s =>
    match exec i s with
    | .next s' => runInstrs is s'
    | .fault r => .fault r
    | .refused r => .refused r

/-- One step: the next beat; where the host presents none, an idle beat (R77; log entry 10). -/
def step (s : State) : Host.Outcome State Fault Refusal :=
  match s.inputs with
  | [] => .next s.idle
  | b :: rest => runInstrs (instrsOfBeat b) (s.takeBeat b rest)

/-! ### Presenting an instruction -/

/-- Put a beat before the beats the host is about to present. -/
def State.present (s : State) (b : Beat) : State := { s with inputs := b :: s.inputs }

/-- The beat of a port word, the configuration inputs at their levels of now. -/
def State.beatOf (s : State) (f : Bytes) : Beat := beatOfPortWord s.co2fSel s.co2fPpm f

/-- Put a frame where the receive side takes its frames from: the buffer, to be delivered by a FLUSH beat (R28, R62). -/
def State.presentFrame (s : State) (f : Bytes) : State :=
  ((s.setRsm ⟨f, false⟩).setCpos .between).present (s.beatOf (encode s.par.raw .flush))

/-- `s` with the instruction of an opcode-table word placed where the next step takes its instruction from. A PORT word
is the next beat. A command kind is its request-side encoding, an ENCODE beat (R70, R78). A report frame is the
buffered frame, with a FLUSH beat that delivers it; so is any other sequence of bytes (log entry 17). -/
def State.withFetchWord (s : State) (nbits w : Nat) : State :=
  if nbits < cmdBits then s.present (s.beatOf (tableBytes nbits w))
  else match decode s.par.raw (tableBytes nbits w) with
    | .error _ => s.presentFrame (tableBytes nbits w)
    | .ok i =>
      match requestOf i with
      | some (op, dev, arg) => s.present (s.beatOf (encode s.par.raw (.encode op dev arg)))
      | none => s.presentFrame (tableBytes nbits w)

end Sys2Proof.Machine
end

