-- ==== Sys2Proof/Machine/Ports.lean ====
section
/-! DEFINITION. The output ports (10_state.md R31, R32) as a view of a step's events. A data port whose valid bit is 0
has no value here (U14; log entry 23). -/

namespace Sys2Proof.Machine

/-- The ports of the FRAME event: `frm_len`, `frm_data`, `frm_ovf`. -/
structure FramePort where
  len : Nat
  data : Bytes
  ovf : Bool
deriving DecidableEq, Repr

/-- `rd_dur_len` (R111, R177): the length of the duration string, at most 13 (R107), in four bits. -/
def durLen (d : Duration) : BitVec 4 := BitVec.ofNat 4 d.str.length

/-- The output ports in one step. `frm_valid`, `rd_valid`, `enc_valid` are 1 where the option is some. -/
structure OutputPorts where
  /-- `frm_*` -/
  frm : Option FramePort
  /-- `rd_*`; `rd_variant` is `variantCode` of it -/
  rd : Option Reading
  /-- `err_valid`: the emitted frame failed to decode -/
  errValid : Bool
  /-- `enc_frame` -/
  enc : Option (BitVec 80)
  /-- `enc_err`: the request failed with InvalidOperation -/
  encErr : Bool
  /-- `err_code`; it has a value where `err_valid` or `enc_err` is 1 (U14) -/
  errCode : Option (BitVec 3)
deriving DecidableEq, Repr

/-- Every output port at 0: no event (R36). -/
def quietPorts : OutputPorts := ⟨none, none, false, none, false, none⟩

/-- `enc_frame` (R32): byte 0 in bits 79:72, byte 9 in bits 7:0. -/
def encFrame (f : Bytes) : BitVec 80 := BitVec.ofNat 80 (beNat f)

/-- `err_code` once a failure of this code is shown too. There is one port, and a beat may carry both a frame that fails
to decode (`err_valid`) and a request that fails (`enc_err`); which of the two codes it then shows is not in the spec
(R32, R220). DESIGN CHOICE (log entry 28): one of the two, a free value says which. -/
def showCode (shown : Option (BitVec 3)) (c : BitVec 3) : BitVec 3 :=
  match shown with
  | none => c
  | some a => if Config.errCodeShowsSecond a c then c else a

/-- The ports with one event on them. InvalidOperation is the encoder's failure (R225), every other kind a frame's; both
show their code on `err_code` (R24, R32), and where both fail in one beat the code is `showCode`'s (log entry 28). -/
def drivePort (p : OutputPorts) : Event → OutputPorts
  | .frame f ovf => { p with frm := some ⟨f.length, f, ovf⟩ }
  | .reading r => { p with rd := some r }
  | .failure .invalidOperation =>
    { p with encErr := true, errCode := some (showCode p.errCode (errCode (some .invalidOperation))) }
  | .failure k => { p with errValid := true, errCode := some (showCode p.errCode (errCode (some k))) }
  | .encoded f => { p with enc := some (encFrame f) }

/-- The output ports of a step with these events. -/
def outputPorts (evs : List Event) : OutputPorts := evs.foldl drivePort quietPorts

end Sys2Proof.Machine
end

