-- ==== Sys2Proof/Safety.lean ====
section
/-! DEFINITION. What the statements speak of: the invariant of the state (10_state.md R35), the shape of a step's events
(R33), and runs with the events they produce. -/

namespace Sys2Proof.Machine

/-- The state invariant: R35 (i), `len(buf) <= BUF_CAP`; R35 (ii), `ovf = 1` implies a full buffer; and, while two or
more bytes of a chunk have been seen, they are in the buffer (R132). -/
def State.Inv (s : State) : Prop :=
  s.rsm.wf s.par.raw.bufCap = true ∧ (s.cpos = .more → 2 ≤ s.rsm.buf.length)

/-- A device type the block knows (R80). -/
abbrev isDevice (dev : Byte) : Prop := dev = 0x01#8 ∨ dev = 0x02#8 ∨ dev = 0x03#8

/-- The command frame with device type, opcode and the four value bytes, its checksum computed (R58, R72). -/
def commandFrame (P : RawParams) (dev opc b5 b6 b7 b8 : Byte) : Bytes :=
  [0xFF#8, 0x55#8, 0x11#8, dev, opc, b5, b6, b7, b8,
    ck P.ck [0xFF#8, 0x55#8, 0x11#8, dev, opc, b5, b6, b7, b8]]

/-- A host program no chunk of which is empty (R126, R133). -/
def noEmptyChunk : List ProgramLine → Bool
  | [] => true
  | .op (.feed []) :: _ => false
  | _ :: ls => noEmptyChunk ls

/-- The factor the configuration inputs select (R25, R173), written out. -/
def co2fOfInputs (sel : Bool) (ppm : Word32) : Nat :=
  if sel = true then ppm.toNat else Config.co2fDefault.toNat

/-- The duration of a report with its field at `od`, written out (R174). -/
def durationOf (f : Bytes) (od : Nat) : Duration :=
  ⟨u16be f od, u8 f (od + 2), u8 f (od + 3), fmtDur (u16be f od) (u8 f (od + 2)) (u8 f (od + 3))⟩

/-- A READING event. -/
def Event.isReading : Event → Bool
  | .reading _ => true
  | .frame _ _ => false
  | .failure _ => false
  | .encoded _ => false

/-- A FAILURE of a received frame: any kind but InvalidOperation (R220). -/
def Event.isDecodeFailure : Event → Bool
  | .failure .invalidOperation => false
  | .failure _ => true
  | .frame _ _ => false
  | .reading _ => false
  | .encoded _ => false

/-- The events of an emission: a FRAME and then exactly one READING or FAILURE (R33, R178). -/
def receiveShape : List Event → Bool
  | [] => true
  | [.frame _ _, e] => e.isReading || e.isDecodeFailure
  | _ => false

/-- The event of a request: ENCODED or FAILURE(InvalidOperation) (R33). -/
def transmitShape : List Event → Bool
  | [] => true
  | [.encoded _] => true
  | [.failure .invalidOperation] => true
  | _ => false

/-- `n` steps: the state after them and the events of all of them, in order (R33: the observable behaviour); none
where a step does not answer a next state. -/
def trace : Nat → State → Option (State × List Event)
  | 0, s => some (s, [])
  | n + 1, s =>
    match step s with
    | .next s' => (trace n s').map (fun p => (p.1, s'.out ++ p.2))
    | .fault _ => none
    | .refused _ => none

end Sys2Proof.Machine
end

