-- ==== Sys2Proof/Certificates/Slice0/Obligations.lean ====
section
/-! DEFINITION. The statements for the provers. Where a statement speaks of every state it speaks of every instantiation
of the OPEN parameters, which State holds (R8): the checksum is then any function with the property CK_VECTORS. Where a
docstring names a decision D<n>, the clause rests on a choice that the spec marks as its own (92_eei_decisions.md), not
on the source; where it names a log entry, on a choice of this model (notes/assumptions). -/

open Sys2Proof Sys2Proof.Machine

/-! ### The host operations -/

/-- R125: CLEAR between chunks empties the buffer, clears ovf, emits nothing; the reassembly state is that of reset.
That nothing is emitted is decision D8. -/
def Obligations.ClearDropsTheBufferSilently : Prop :=
  ∀ s : State, s.cpos = .between →
    exec .clear s = .next { s with rsm := ⟨[], false⟩ } ∧ State.reset.rsm = ⟨[], false⟩

/-- R124: FLUSH between chunks emits a non-empty buffer with its decoding and empties it; on an empty buffer it emits
nothing. FLUSH's contract is decision D7. -/
def Obligations.FlushEmitsTheBufferThenEmptiesIt : Prop :=
  ∀ s : State, s.cpos = .between →
    exec .flush s = .next { s with
      rsm := ⟨[], false⟩
      out := s.out ++ (if s.rsm.buf = [] then [] else
        [.frame s.rsm.buf s.rsm.ovf,
         decodeFrame s.par.raw s.rsm.buf s.rsm.ovf (co2fOfInputs s.co2fSel s.co2fPpm)]) }

/-- R132 (the port level is decision D3): the per-beat rule of FEED, APPEND written out, for each value of cpos. -/
def Obligations.FeedBeatFollowsThePerBeatRule : Prop :=
  ∀ (s : State) (b : Byte) (l : Bool),
    let app : Byte → ReassemblyState → ReassemblyState := fun x r =>
      if r.buf.length < s.par.raw.bufCap then ⟨r.buf ++ [x], r.ovf⟩ else ⟨r.buf, true⟩
    let fr : List Event := if s.rsm.buf = [] then [] else
      [.frame s.rsm.buf s.rsm.ovf,
       decodeFrame s.par.raw s.rsm.buf s.rsm.ovf (co2fOfInputs s.co2fSel s.co2fPpm)]
    let pos : ChunkPos := if l = true then .between else .more
    (s.cpos = .between → l = true → exec (.feed b l) s = .next { s with rsm := app b s.rsm }) ∧
    (s.cpos = .between → l = false → exec (.feed b l) s = .next { s with hold := b, cpos := .one }) ∧
    (s.cpos = .one → s.hold = 0xFF#8 → b = 0x55#8 →
      exec (.feed b l) s = .next { s with
        rsm := app b (app s.hold ⟨[], false⟩), cpos := pos, out := s.out ++ fr }) ∧
    (s.cpos = .one → ¬ (s.hold = 0xFF#8 ∧ b = 0x55#8) →
      exec (.feed b l) s = .next { s with rsm := app b (app s.hold s.rsm), cpos := pos }) ∧
    (s.cpos = .more → exec (.feed b l) s = .next { s with rsm := app b s.rsm, cpos := pos })

/-- R123, and R127 for a chunk that does not fit: FEED of a chunk, STORE written out: a header-leading chunk emits what is
buffered, unless that is nothing, and replaces it; any other is appended without emission. That the bytes past the
capacity are dropped and ovf is set is decision D6, and that it is taken instead of the refusal R127 also allows is the
model's choice (log entry 5). -/
def Obligations.FeedFollowsTheChunkRule : Prop :=
  ∀ (P : RawParams) (co2f : Nat) (chunk : Bytes) (r : ReassemblyState), chunk ≠ [] →
    let stored : ReassemblyState → ReassemblyState := fun r =>
      if chunk.length ≤ P.bufCap - r.buf.length then ⟨r.buf ++ chunk, r.ovf⟩
      else ⟨r.buf ++ chunk.take (P.bufCap - r.buf.length), true⟩
    (chunk[0]? = some 0xFF#8 ∧ chunk[1]? = some 0x55#8 →
      transact P co2f (.feed chunk) r = .next (stored ⟨[], false⟩,
        if r.buf = [] then [] else [.frame r.buf r.ovf, decodeFrame P r.buf r.ovf co2f])) ∧
    (¬ (chunk[0]? = some 0xFF#8 ∧ chunk[1]? = some 0x55#8) →
      transact P co2f (.feed chunk) r = .next (stored r, []))

/-- The frame of FEED: but for the header decision on a chunk's second byte, every byte that is in the buffer stays
where it is, at most two are added, no event is produced; and in every case the inputs and parameters stay. -/
def Obligations.FeedKeepsTheBytesAlreadyBuffered : Prop :=
  ∀ (s t : State) (b : Byte) (l : Bool), exec (.feed b l) s = .next t →
    (¬ (s.cpos = .one ∧ s.hold = 0xFF#8 ∧ b = 0x55#8) →
      (∀ i, i < s.rsm.buf.length → t.rsm.readByte i = s.rsm.readByte i) ∧
      t.rsm.buf.length ≤ s.rsm.buf.length + 2 ∧ t.out = s.out) ∧
    t.inputs = s.inputs ∧ t.par = s.par ∧ t.co2fSel = s.co2fSel ∧ t.co2fPpm = s.co2fPpm

/-- R35 (iii): while the buffer begins with the header, FEED keeps it so. -/
def Obligations.FeedKeepsTheHeaderAtTheFront : Prop :=
  ∀ (s t : State) (b : Byte) (l : Bool), hdrLead s.rsm.buf = true →
    exec (.feed b l) s = .next t → hdrLead t.rsm.buf = true

/-- R56, R206: every instruction but CLEAR, FLUSH and FEED changes nothing of the state and adds exactly one event. -/
def Obligations.OnlyFeedFlushClearChangeTheBuffer : Prop :=
  ∀ (i : Instr) (s : State), i ≠ .clear → i ≠ .flush → (∀ b l, i ≠ .feed b l) →
    ∃ e : Event, exec i s = .next { s with out := s.out ++ [e] }

/-! ### The step -/

/-- A port word of one strobe on the next beat: the step is that instruction, after the beat's configuration inputs
are taken and the events of the step before are gone. -/
def Obligations.StepRunsTheDecodedPortInstruction : Prop :=
  ∀ (s : State) (b : Beat) (rest : List Beat) (i : Instr), s.inputs = b :: rest →
    decode s.par.raw (portWordOfBeat b) = .ok i →
    step s = exec i { s with co2fSel := b.co2fSel, co2fPpm := b.co2fPpm, inputs := rest, out := [] }

/-- A report frame in the buffer and a FLUSH on the next beat: the step is the report instruction, after the FRAME
event and with the buffer empty. -/
def Obligations.StepRunsTheBufferedReport : Prop :=
  ∀ (s : State) (b : Beat) (rest : List Beat) (v : Variant) (body : Bytes) (cks : Byte),
    s.inputs = b :: rest → instrsOfBeat b = [.flush] → s.cpos = .between →
    s.rsm = ⟨encode s.par.raw (reportInstr v body cks), false⟩ →
    step s = exec (reportInstr v body cks) { s with
      co2fSel := b.co2fSel, co2fPpm := b.co2fPpm, inputs := rest, rsm := ⟨[], false⟩,
      out := [.frame (encode s.par.raw (reportInstr v body cks)) false] }

/-- A command kind presented as the next instruction is run by the next step. -/
def Obligations.StepRunsThePresentedCommand : Prop :=
  ∀ (s : State) (i : Instr), i.wf s.par.raw = true → requestOf i ≠ none →
    step (s.withFetchWord 80 (beNat (encode s.par.raw i))) = exec i { s with out := [] }

/-- R77: a step without a beat, and a beat with no strobe, change nothing but that the events of the step before are
gone and the configuration inputs are the beat's. -/
def Obligations.IdleBeatChangesNothing : Prop :=
  ∀ s : State,
    (s.inputs = [] → step s = .next { s with out := [] }) ∧
    (∀ b rest, s.inputs = b :: rest → b.clear = false → b.flush = false → b.rxValid = false → b.encReq = false →
      step s = .next { s with co2fSel := b.co2fSel, co2fPpm := b.co2fPpm, inputs := rest, out := [] })

/-- R231, R262 (decisions D31, D32; the place of ENCODE's event in the list is log entry 11): between chunks, CLEAR,
FLUSH and the chunk byte of one beat take effect in this order, and ENCODE adds the event it has on any beat; inside a
chunk a beat with CLEAR or FLUSH is refused. -/
def Obligations.StrobesOfOneBeatTakeEffectInOrder : Prop :=
  ∀ (s : State) (b : Beat) (rest : List Beat), s.inputs = b :: rest →
    (s.cpos = .between →
      let r1 : ReassemblyState := if b.clear = true then ⟨[], false⟩ else s.rsm
      let fr : List Event := if b.flush = true ∧ r1.buf ≠ [] then
        [.frame r1.buf r1.ovf, decodeFrame s.par.raw r1.buf r1.ovf (co2fOfInputs b.co2fSel b.co2fPpm)] else []
      let r2 : ReassemblyState := if b.flush = true then ⟨[], false⟩ else r1
      step s = .next { s with
        co2fSel := b.co2fSel
        co2fPpm := b.co2fPpm
        inputs := rest
        rsm := if b.rxValid = true ∧ b.rxLast = true then append s.par.raw.bufCap b.rxData r2 else r2
        cpos := if b.rxValid = true ∧ b.rxLast = false then .one else .between
        hold := if b.rxValid = true ∧ b.rxLast = false then b.rxData else s.hold
        out := fr ++ (if b.encReq = true then [encodeEvent s.par.raw b.encOp b.encDev b.encArg] else []) }) ∧
    (s.cpos ≠ .between → (b.clear = true ∨ b.flush = true) → step s = .refused .strobeInsideChunk)

/-- R206: ENCODE is independent of the receive side: two steps with the same request produce the same last event,
whatever the two states and the other strobes are; and the request changes nothing of the receive side. That ENCODE's
event is the last of the step's list is the model's choice (log entry 11: the spec gives it no place). -/
def Obligations.EncodeIsIndependentOfTheReceiveSide : Prop :=
  ∀ (s t s' t' : State) (b b' : Beat) (rest rest' : List Beat), s.inputs = b :: rest → s'.inputs = b' :: rest' →
    b.encReq = true → b'.encReq = true → step s = .next t → step s' = .next t' →
    (s.par = s'.par → b.encOp = b'.encOp → b.encDev = b'.encDev → b.encArg = b'.encArg →
      t.out.getLast? = t'.out.getLast?) ∧
    step { s with inputs := { b with encReq := false } :: rest } = .next { t with out := t.out.dropLast }

/-- R33, for the operations of one beat together: the receive side gives at most one FRAME with exactly one READING or
FAILURE after it, the request at most one ENCODED or FAILURE(InvalidOperation). R33 gives no order between the two
directions of one beat; that the list has the request's event last is the model's choice (log entry 11). -/
def Obligations.EveryStepEmitsAtMostOneFrameWithOneResult : Prop :=
  ∀ s t : State, step s = .next t →
    ∃ rx tx : List Event, t.out = rx ++ tx ∧ receiveShape rx = true ∧ transmitShape tx = true

/-- R31, R32, read through the model's view of a step's events as ports (outputPorts, log entry 23): of rd_valid and
err_valid exactly one is 1 when frm_valid is 1 and none otherwise; of enc_valid and enc_err exactly one is 1 when
enc_req was 1 and none otherwise. -/
def Obligations.ValidPortsPairUp : Prop :=
  ∀ (s t : State) (b : Beat) (rest : List Beat), s.inputs = b :: rest → step s = .next t →
    let p := outputPorts t.out
    (p.frm.isSome = true ↔ (p.rd.isSome = true ∨ p.errValid = true)) ∧
    ¬ (p.rd.isSome = true ∧ p.errValid = true) ∧
    (b.encReq = true ↔ (p.enc.isSome = true ∨ p.encErr = true)) ∧
    ¬ (p.enc.isSome = true ∧ p.encErr = true)

/-- R31 (log entry 23): an emitted frame is not empty, holds at most BUF_CAP bytes, and its length fits the port
frm_len. -/
def Obligations.EmittedLengthFitsItsPort : Prop :=
  ∀ (s t : State) (fp : FramePort), s.Inv → step s = .next t → (outputPorts t.out).frm = some fp →
    fp.len = fp.data.length ∧ 0 < fp.len ∧ fp.len ≤ s.par.raw.bufCap ∧
    fp.len < 2 ^ frmLenWidth s.par.raw.bufCap

/-- R29, R63 (the parameters as a field of State are log entry 1): no step writes the parameters. -/
def Obligations.NoStepWritesTheParameters : Prop :=
  ∀ s t : State, step s = .next t → t.par = s.par

/-- R35 (i), (ii) and, of R132, that two bytes are in the buffer once two bytes of a chunk have been seen: every step
keeps them, from every state. -/
def Obligations.EveryStepKeepsTheBufferInvariant : Prop :=
  ∀ s t : State, s.Inv → step s = .next t → t.Inv

/-- R35, R36: the reset state has the invariant. -/
def Obligations.ResetHasTheBufferInvariant : Prop := State.reset.Inv

/-- R251, R253: after reset the buffer is empty, ovf is 0, cpos is 0 and there is no event; the same reset at any time
(resetNow). Decisions D8, D33; log entry 25. -/
def Obligations.ResetEmptiesTheBlock : Prop :=
  (State.reset.rsm = ⟨[], false⟩ ∧ State.reset.cpos = .between ∧ State.reset.out = []) ∧
  ∀ s : State, s.resetNow.rsm = ⟨[], false⟩ ∧ s.resetNow.cpos = .between ∧ s.resetNow.out = []

/-! ### The reassembler as a whole -/

/-- R133: a host program presented beat by beat has the events of the transaction machine, and leaves its reassembly
state: after every program, so after every chunk of one. -/
def Obligations.BeatsRefineTransactions : Prop :=
  ∀ (s : State) (prog : List ProgramLine), noEmptyChunk prog = true → s.cpos = .between →
    s.inputs = beatsOfProgram s.par.raw prog s.co2fSel s.co2fPpm →
    ∃ (t : State) (r : ReassemblyState) (evs : List Event),
      runProgram s.par.raw prog s.co2fSel s.co2fPpm s.rsm = .next (r, evs) ∧
      trace s.inputs.length s = some (t, evs) ∧
      t.rsm = r ∧ t.cpos = .between ∧ t.inputs = [] ∧ t.par = s.par

/-- R129: a frame that fits the buffer, fed from an empty buffer in non-empty chunks of which the first and no other
is header-leading, comes out whole and once, when the next header-leading chunk is fed. -/
def Obligations.FragmentationDoesNotMatter : Prop :=
  ∀ (P : Params) (sel : Bool) (ppm : Word32) (c h : Bytes) (cs : List Bytes) (r : ReassemblyState),
    r.buf = [] → hdrLead c = true → (∀ d ∈ cs, d ≠ [] ∧ hdrLead d = false) →
    (c ++ cs.flatten).length ≤ P.raw.bufCap → hdrLead h = true →
    (∃ r1, runProgram P.raw ((c :: cs).map (fun d => .op (.feed d))) sel ppm r = .next (r1, [])) ∧
    (∃ r2, runProgram P.raw ((c :: cs ++ [h]).map (fun d => .op (.feed d))) sel ppm r =
      .next (r2, [.frame (c ++ cs.flatten) false,
        decodeFrame P.raw (c ++ cs.flatten) false (co2fOfInputs sel ppm)]))

/-- R127 (decision D6): a chunk that does not fit keeps the buffer's first BUF_CAP bytes and sets ovf, one that fits
leaves ovf; a frame emitted with ovf = 1 fails with MalformedFrame whatever it holds. -/
def Obligations.OverflowDropsWhatDoesNotFit : Prop :=
  ∀ (P : Params) (co2f : Nat) (c : Bytes) (r : ReassemblyState), r.buf.length ≤ P.raw.bufCap →
    let base : ReassemblyState := if hdrLead c = true then ⟨[], false⟩ else r
    (feedChunk P.raw co2f c r).1 =
      ⟨(base.buf ++ c).take P.raw.bufCap, base.ovf || decide (P.raw.bufCap < (base.buf ++ c).length)⟩ ∧
    (∀ f, decodeFrame P.raw f true co2f = .failure .malformedFrame)

/-- R126 (decision D4): FEED of an empty chunk is refused at the transaction level. -/
def Obligations.EmptyChunkIsRefused : Prop :=
  ∀ (P : RawParams) (co2f : Nat) (r : ReassemblyState), transact P co2f (.feed []) r = .refused .emptyChunk

/-! ### The command encoder -/

/-- R78, R192 (the numbering and the ignored argument are decisions D28, D29; the checksum byte of the twelve
instructions is not read, log entry 18): ENCODE with selector 0 to 9 is the operation of that number; the eight
operations of value mode ZERO ignore the argument; setPlus and setMinus for device type 3 are the rows of their own.
-/
def Obligations.EncodeSelectsTheTenOperations : Prop :=
  ∀ (s : State) (dev cks : Byte) (arg : Word32),
    exec (.encode 0#4 dev arg) s = exec (.resetWh dev cks) s ∧
    exec (.encode 1#4 dev arg) s = exec (.resetAh dev cks) s ∧
    exec (.encode 2#4 dev arg) s = exec (.resetDuration dev cks) s ∧
    exec (.encode 3#4 dev arg) s = exec (.resetAll dev cks) s ∧
    exec (.encode 4#4 dev arg) s = exec (.setBacklightTime dev arg cks) s ∧
    exec (.encode 5#4 dev arg) s = exec (.setPrice dev arg cks) s ∧
    exec (.encode 6#4 dev arg) s = exec (.setup dev cks) s ∧
    exec (.encode 7#4 dev arg) s = exec (.enter dev cks) s ∧
    exec (.encode 8#4 dev arg) s = exec (.setPlus dev cks) s ∧
    exec (.encode 9#4 dev arg) s = exec (.setMinus dev cks) s ∧
    exec (.encode 8#4 0x03#8 arg) s = exec (.setPlusUsb cks) s ∧
    exec (.encode 9#4 0x03#8 arg) s = exec (.setMinusUsb cks) s

/-- R191: the OPCODE_ROM, its twenty entries. -/
def Obligations.OpcodeRomIsTheTable : Prop :=
  ∀ isUsb : Bool,
    opcodeRom .resetWh isUsb = (0x01#8, .zero) ∧ opcodeRom .resetAh isUsb = (0x02#8, .zero) ∧
    opcodeRom .resetDuration isUsb = (0x03#8, .zero) ∧ opcodeRom .resetAll isUsb = (0x05#8, .zero) ∧
    opcodeRom .setBacklightTime isUsb = (0x21#8, .clampBl) ∧ opcodeRom .setPrice isUsb = (0x22#8, .clampPrice) ∧
    opcodeRom .setup isUsb = (0x31#8, .zero) ∧ opcodeRom .enter isUsb = (0x32#8, .zero) ∧
    opcodeRom .setPlus isUsb = (if isUsb = true then 0x11#8 else 0x33#8, .zero) ∧
    opcodeRom .setMinus isUsb = (if isUsb = true then 0x12#8 else 0x34#8, .zero)

/-- R190, R191, R194: ENCODE of a selector 0 to 9 for a device produces the assembled frame with the opcode and value
the ROM gives, and changes nothing else. -/
def Obligations.EncodeProducesTheAssembledFrame : Prop :=
  ∀ (s : State) (op : BitVec 4) (dev : Byte) (arg : Word32) (o : EncOp), encOpOf op = some o → isDevice dev →
    let v : Word32 := match (opcodeRom o (dev == 0x03#8)).2 with
      | .zero => 0#32
      | .clampBl => BitVec.ofInt 32 (max 0 (min arg.toInt 60))
      | .clampPrice => BitVec.ofInt 32 (max 1 (min arg.toInt 999999))
    exec (.encode op dev arg) s = .next { s with out := s.out ++ [.encoded (commandFrame s.par.raw dev
      (opcodeRom o (dev == 0x03#8)).1 (BitVec.ofNat 8 (v.toNat / 16777216)) (BitVec.ofNat 8 (v.toNat / 65536))
      (BitVec.ofNat 8 (v.toNat / 256)) (BitVec.ofNat 8 v.toNat))] }

/-- R193: ENCODE fails with InvalidOperation, and produces no frame, for a device type that is none and for a selector
of 10 or more, whatever the argument (decisions D29, D30). -/
def Obligations.EncodeRejectsUnknownDevicesAndSelectors : Prop :=
  ∀ (s : State) (op : BitVec 4) (dev : Byte) (arg : Word32), (¬ isDevice dev ∨ 9 < op.toNat) →
    exec (.encode op dev arg) s = .next { s with out := s.out ++ [.failure .invalidOperation] }

/-- R195, R196, R197, R198, R201, R202: the six commands without an argument and without an exception for device type
3, their opcodes and the value 0; InvalidOperation for a device type that is none. -/
def Obligations.PlainCommandsSendTheirOpcodeAndZero : Prop :=
  ∀ (s : State) (dev cks : Byte) (arg : Word32),
    let sends : Byte → Host.Outcome State Fault Refusal := fun opc =>
      .next { s with out := s.out ++ [.encoded (commandFrame s.par.raw dev opc 0#8 0#8 0#8 0#8)] }
    let fails : Host.Outcome State Fault Refusal := .next { s with out := s.out ++ [.failure .invalidOperation] }
    let both : Instr → BitVec 4 → Host.Outcome State Fault Refusal → Prop := fun i op r =>
      exec i s = r ∧ exec (.encode op dev arg) s = r
    (isDevice dev →
      both (.resetWh dev cks) 0#4 (sends 0x01#8) ∧ both (.resetAh dev cks) 1#4 (sends 0x02#8) ∧
      both (.resetDuration dev cks) 2#4 (sends 0x03#8) ∧ both (.resetAll dev cks) 3#4 (sends 0x05#8) ∧
      both (.setup dev cks) 6#4 (sends 0x31#8) ∧ both (.enter dev cks) 7#4 (sends 0x32#8)) ∧
    (¬ isDevice dev →
      both (.resetWh dev cks) 0#4 fails ∧ both (.resetAh dev cks) 1#4 fails ∧
      both (.resetDuration dev cks) 2#4 fails ∧ both (.resetAll dev cks) 3#4 fails ∧
      both (.setup dev cks) 6#4 fails ∧ both (.enter dev cks) 7#4 fails)

/-- R199: setBacklightTime sends the argument clamped to 0..60 in byte 8, bytes 5 to 7 zero; InvalidOperation for a
device type that is none. -/
def Obligations.SetBacklightTimeSendsTheClampedSeconds : Prop :=
  ∀ (s : State) (dev cks : Byte) (arg : Word32) (i : Instr),
    (i = .setBacklightTime dev arg cks ∨ i = .encode 4#4 dev arg) →
    (isDevice dev → exec i s = .next { s with out := s.out ++
      [.encoded (commandFrame s.par.raw dev 0x21#8 0#8 0#8 0#8 (BitVec.ofInt 8 (max 0 (min arg.toInt 60))))] }) ∧
    (¬ isDevice dev → exec i s = .next { s with out := s.out ++ [.failure .invalidOperation] })

/-- R200: setPrice sends the argument clamped to 1..999999, big-endian; byte 5 is zero and byte 6 at most 0F;
InvalidOperation for a device type that is none. -/
def Obligations.SetPriceSendsTheClampedPrice : Prop :=
  ∀ (s : State) (dev cks : Byte) (arg : Word32) (i : Instr),
    let p : Nat := (max 1 (min arg.toInt 999999)).toNat
    p / 65536 ≤ 0x0F ∧
    ((i = .setPrice dev arg cks ∨ i = .encode 5#4 dev arg) →
      (isDevice dev → exec i s = .next { s with out := s.out ++
        [.encoded (commandFrame s.par.raw dev 0x22#8 0#8 (BitVec.ofNat 8 (p / 65536)) (BitVec.ofNat 8 (p / 256))
          (BitVec.ofNat 8 p))] }) ∧
      (¬ isDevice dev → exec i s = .next { s with out := s.out ++ [.failure .invalidOperation] }))

/-- R203, R204: setPlus and setMinus: opcodes 33 and 34, for device type 3 opcodes 11 and 12; InvalidOperation for a
device type that is none. -/
def Obligations.SetPlusAndSetMinusKeepTheDeviceThreeException : Prop :=
  ∀ (s : State) (dev cks : Byte) (arg : Word32),
    let sends : Byte → Byte → Host.Outcome State Fault Refusal := fun d opc =>
      .next { s with out := s.out ++ [.encoded (commandFrame s.par.raw d opc 0#8 0#8 0#8 0#8)] }
    let fails : Host.Outcome State Fault Refusal := .next { s with out := s.out ++ [.failure .invalidOperation] }
    (isDevice dev →
      exec (.setPlus dev cks) s = sends dev (if dev = 0x03#8 then 0x11#8 else 0x33#8) ∧
      exec (.encode 8#4 dev arg) s = sends dev (if dev = 0x03#8 then 0x11#8 else 0x33#8) ∧
      exec (.setMinus dev cks) s = sends dev (if dev = 0x03#8 then 0x12#8 else 0x34#8) ∧
      exec (.encode 9#4 dev arg) s = sends dev (if dev = 0x03#8 then 0x12#8 else 0x34#8)) ∧
    exec (.setPlusUsb cks) s = sends 0x03#8 0x11#8 ∧
    exec (.setMinusUsb cks) s = sends 0x03#8 0x12#8 ∧
    commandFrame s.par.raw 0x03#8 0x11#8 0#8 0#8 0#8 0#8 =
      [0xFF#8, 0x55#8, 0x11#8, 0x03#8, 0x11#8, 0x00#8, 0x00#8, 0x00#8, 0x00#8, 0x61#8] ∧
    commandFrame s.par.raw 0x03#8 0x12#8 0#8 0#8 0#8 0#8 =
      [0xFF#8, 0x55#8, 0x11#8, 0x03#8, 0x12#8, 0x00#8, 0x00#8, 0x00#8, 0x00#8, 0x62#8] ∧
    (¬ isDevice dev →
      exec (.setPlus dev cks) s = fails ∧ exec (.setMinus dev cks) s = fails ∧
      exec (.encode 8#4 dev arg) s = fails ∧ exec (.encode 9#4 dev arg) s = fails)

/-- R142: every admissible checksum function has the twelve values of CK_VECTORS. -/
def Obligations.ChecksumHasTheTwelveValues : Prop :=
  ∀ c : CkSel,
    let k : Byte → Byte → Byte → Byte := fun dev opc v =>
      ck c [0xFF#8, 0x55#8, 0x11#8, dev, opc, 0x00#8, 0x00#8, 0x00#8, v]
    k 0x01#8 0x01#8 0x00#8 = 0x57#8 ∧ k 0x01#8 0x02#8 0x00#8 = 0x50#8 ∧ k 0x01#8 0x03#8 0x00#8 = 0x51#8 ∧
    k 0x01#8 0x05#8 0x00#8 = 0x53#8 ∧ k 0x01#8 0x21#8 0x01#8 = 0x70#8 ∧ k 0x01#8 0x22#8 0x01#8 = 0x71#8 ∧
    k 0x01#8 0x31#8 0x00#8 = 0x07#8 ∧ k 0x01#8 0x32#8 0x00#8 = 0x00#8 ∧ k 0x03#8 0x11#8 0x00#8 = 0x61#8 ∧
    k 0x03#8 0x12#8 0x00#8 = 0x62#8 ∧ k 0x01#8 0x33#8 0x00#8 = 0x01#8 ∧ k 0x01#8 0x34#8 0x00#8 = 0x02#8

/-- L1-A: the twelve reference frames, whatever admissible checksum function the instantiation has. -/
def Obligations.ReferenceFramesHoldForEveryChecksum : Prop :=
  ∀ (s : State) (cks : Byte),
    let sends : Byte → Byte → Byte → Byte → Host.Outcome State Fault Refusal := fun dev opc v c =>
      .next { s with out := s.out ++
        [.encoded [0xFF#8, 0x55#8, 0x11#8, dev, opc, 0x00#8, 0x00#8, 0x00#8, v, c]] }
    exec (.resetWh 0x01#8 cks) s = sends 0x01#8 0x01#8 0x00#8 0x57#8 ∧
    exec (.resetAh 0x01#8 cks) s = sends 0x01#8 0x02#8 0x00#8 0x50#8 ∧
    exec (.resetDuration 0x01#8 cks) s = sends 0x01#8 0x03#8 0x00#8 0x51#8 ∧
    exec (.resetAll 0x01#8 cks) s = sends 0x01#8 0x05#8 0x00#8 0x53#8 ∧
    exec (.setBacklightTime 0x01#8 1#32 cks) s = sends 0x01#8 0x21#8 0x01#8 0x70#8 ∧
    exec (.setPrice 0x01#8 0#32 cks) s = sends 0x01#8 0x22#8 0x01#8 0x71#8 ∧
    exec (.setup 0x01#8 cks) s = sends 0x01#8 0x31#8 0x00#8 0x07#8 ∧
    exec (.enter 0x01#8 cks) s = sends 0x01#8 0x32#8 0x00#8 0x00#8 ∧
    exec (.setPlusUsb cks) s = sends 0x03#8 0x11#8 0x00#8 0x61#8 ∧
    exec (.setMinusUsb cks) s = sends 0x03#8 0x12#8 0x00#8 0x62#8 ∧
    exec (.setPlus 0x01#8 cks) s = sends 0x01#8 0x33#8 0x00#8 0x01#8 ∧
    exec (.setMinus 0x01#8 cks) s = sends 0x01#8 0x34#8 0x00#8 0x02#8

/-- R145, R194 laws: the frame of every successful ENCODE has ten bytes, is header-leading and validates as a Command.
-/
def Obligations.EncodedFramesValidateAsCommands : Prop :=
  ∀ (s t : State) (op : BitVec 4) (dev : Byte) (arg : Word32) (f : Bytes),
    exec (.encode op dev arg) s = .next t → t.out = s.out ++ [.encoded f] →
    validate s.par.raw f .command = none ∧ f.length = 10 ∧ hdrLead f = true

/-- R82: a command frame of the encoder, received, fails with UnexpectedMessageType. -/
def Obligations.CommandsFedBackAreUnexpected : Prop :=
  ∀ (P : Params) (op : BitVec 4) (dev : Byte) (arg : Word32) (f : Bytes) (co2f : Nat),
    encodeEvent P.raw op dev arg = .encoded f → decodeFrame P.raw f false co2f = .failure .unexpectedMessageType

/-- R205, in the source's form and in the spec's: an argument outside the range gives the frame of the bound, and
clamping before the request changes nothing. -/
def Obligations.ClampingTwiceIsClampingOnce : Prop :=
  ∀ (s : State) (dev cks : Byte) (v : Word32),
    (v.toInt < 1 → exec (.setPrice dev v cks) s = exec (.setPrice dev 1#32 cks) s) ∧
    (999999 < v.toInt → exec (.setPrice dev v cks) s = exec (.setPrice dev 999999#32 cks) s) ∧
    (v.toInt < 0 → exec (.setBacklightTime dev v cks) s = exec (.setBacklightTime dev 0#32 cks) s) ∧
    (60 < v.toInt → exec (.setBacklightTime dev v cks) s = exec (.setBacklightTime dev 60#32 cks) s) ∧
    exec (.setPrice dev v cks) s = exec (.setPrice dev (BitVec.ofInt 32 (clamp v.toInt 1 999999)) cks) s ∧
    exec (.setBacklightTime dev v cks) s = exec (.setBacklightTime dev (BitVec.ofInt 32 (clamp v.toInt 0 60)) cks) s

/-! ### The packet decoder -/

/-- R155: the DISPATCH ROM, its 256 entries. -/
def Obligations.DispatchIsTheRom : Prop :=
  dispatch 0x01#8 = some .ac ∧ dispatch 0x02#8 = some .dc ∧ dispatch 0x03#8 = some .usb ∧
  ∀ d : Byte, d ≠ 0x01#8 → d ≠ 0x02#8 → d ≠ 0x03#8 → dispatch d = none

/-- R156: a frame that passes steps 0 to 2 and has an unrecognised device type fails with UnknownDeviceType, whatever
its length; the five-byte frame FF 55 01 09 4E is one, at the default parameters. -/
def Obligations.UnknownDevicesAreReportedAsSuch : Prop :=
  (∀ (P : Params) (f : Bytes) (co2f : Nat), precheck P.raw f = none → (∀ d, f[3]? = some d → dispatch d = none) →
    decodeFrame P.raw f false co2f = .failure .unknownDeviceType) ∧
  (∀ co2f, decodeFrame rawDefault [0xFF#8, 0x55#8, 0x01#8, 0x09#8, 0x4E#8] false co2f = .failure .unknownDeviceType)

/-- R150, R230 (decisions D6, D11 to D14, D16 settle the kinds and the order where the source does not): the checks of
DECODE in their order, each reported only when the earlier pass; and a READING when all pass. -/
def Obligations.DecodeReportsTheFirstFailingCheck : Prop :=
  ∀ (P : Params) (f : Bytes) (ovf : Bool) (co2f : Nat),
    let e := decodeFrame P.raw f ovf co2f
    let hdr : Prop := f[0]? = some 0xFF#8 ∧ f[1]? = some 0x55#8
    let sum : Prop := f.getLast? = some (ck P.raw.ck f.dropLast)
    let tag : Prop := f[2]? = some P.raw.reportTag
    (ovf = true → e = .failure .malformedFrame) ∧
    (ovf = false → f.length < 5 → e = .failure .malformedFrame) ∧
    (ovf = false → 5 ≤ f.length → ¬ hdr → e = .failure .malformedFrame) ∧
    (ovf = false → 5 ≤ f.length → hdr → ¬ sum → e = .failure .checksumMismatch) ∧
    (ovf = false → 5 ≤ f.length → hdr → sum → ¬ tag → e = .failure .unexpectedMessageType) ∧
    (ovf = false → 5 ≤ f.length → hdr → sum → tag → (∀ d, f[3]? = some d → ¬ isDevice d) →
      e = .failure .unknownDeviceType) ∧
    (∀ v, ovf = false → 5 ≤ f.length → hdr → sum → tag → f[3]? = some (deviceByte v) →
      f.length ≠ reportLen P.raw v → e = .failure .malformedFrame) ∧
    (∀ v, ovf = false → 5 ≤ f.length → hdr → sum → tag → f[3]? = some (deviceByte v) →
      f.length = reportLen P.raw v → ∃ r, e = .reading r)

/-- R143, R144: VALIDATE tests the checksum first and the tag second (the order is decision D16). -/
def Obligations.ValidateTestsChecksumThenTag : Prop :=
  ∀ (P : RawParams) (f : Bytes) (t : MsgType), 3 ≤ f.length →
    let sum : Prop := f.getLast? = some (ck P.ck f.dropLast)
    let tag : Prop := f[2]? = some (match t with | .report => P.reportTag | .command => 0x11#8)
    (¬ sum → validate P f t = some .checksumMismatch) ∧
    (sum → ¬ tag → validate P f t = some .unexpectedMessageType) ∧
    (sum → tag → validate P f t = none)

/-- R161, R162, R163: an AC report of the right length and checksum decodes to the Reading of the rule (the offsets
are decision D19, the rounding of co2 D25, the duration D22). -/
def Obligations.AcReportDecodesToItsReading : Prop :=
  ∀ (s : State) (body : Bytes) (cks : Byte),
    let f := reportBytes s.par.raw .ac body cks
    f.length = s.par.raw.lenAc → cks = ck s.par.raw.ck f.dropLast →
    exec (.reportAc body cks) s = .next { s with out := s.out ++ [.reading (.ac {
      voltageMv := u24be f 4 * 100
      currentMa := u24be f 7
      powerMw := u24be f 10 * 100
      energyMwh := u32be f 13 * 10000
      priceC := u24be f 17
      freqDhz := u16be f 20
      pfMilli := u16be f 22
      tempC := u16be f 24
      dur := durationOf f 26
      blRaw := BitVec.ofNat 8 (u8 f 30)
      blClass := classifyBl (BitVec.ofNat 8 (u8 f 30))
      co2 := (u32be f 13 * 10000 * co2fOfInputs s.co2fSel s.co2fPpm + 500000) / 1000000
      feeMant := u32be f 13 * u24be f 17
      feeExp := -1 })] }

/-- R166, R167, R168: the same of a DC report (the offsets are decision D20). -/
def Obligations.DcReportDecodesToItsReading : Prop :=
  ∀ (s : State) (body : Bytes) (cks : Byte),
    let f := reportBytes s.par.raw .dc body cks
    f.length = s.par.raw.lenDc → cks = ck s.par.raw.ck f.dropLast →
    exec (.reportDc body cks) s = .next { s with out := s.out ++ [.reading (.dc {
      voltageMv := u24be f 4 * 100
      currentMa := u24be f 7
      energyMwh := u32be f 13 * 10
      priceC := u24be f 17
      tempC := u16be f 24
      dur := durationOf f 26
      blRaw := BitVec.ofNat 8 (u8 f 30)
      blClass := classifyBl (BitVec.ofNat 8 (u8 f 30))
      powerMant := u24be f 4 * u24be f 7
      powerExp := -1
      co2 := (u32be f 13 * 10 * co2fOfInputs s.co2fSel s.co2fPpm + 500000) / 1000000
      feeMant := u32be f 13 * u24be f 17
      feeExp := -7 })] }

/-- R171, R172: the same of a USB report, for the default layout of R170 (all of it decision D21, log entry 7). -/
def Obligations.UsbReportDecodesToItsReading : Prop :=
  ∀ (s : State) (body : Bytes) (cks : Byte),
    let f := reportBytes s.par.raw .usb body cks
    s.par.raw.layoutUsb = layoutUsbDefault →
    f.length = s.par.raw.lenUsb → cks = ck s.par.raw.ck f.dropLast →
    exec (.reportUsb body cks) s = .next { s with out := s.out ++ [.reading (.usb {
      voltageMv := some (u24be f 4 * 100)
      currentMa := some (u24be f 7)
      powerMw := none
      energyMwh := some (u32be f 13 * 10)
      priceC := none
      freqDhz := none
      pfMilli := none
      dminusMv := some (u16be f 17 * 10)
      dplusMv := some (u16be f 19 * 10)
      chargeMah := some (u32be f 21)
      tempC := some (u16be f 25)
      dur := some (durationOf f 27)
      blRaw := some (BitVec.ofNat 8 (u8 f 31))
      blClass := some (classifyBl (BitVec.ofNat 8 (u8 f 31)))
      extra := []
      derivedPower := some ⟨u24be f 4 * u24be f 7, -1⟩
      co2 := none
      fee := none })] }

/-- R153, R157: a report with a wrong checksum fails with ChecksumMismatch; one with the right checksum and a wrong
length, shorter or longer, with MalformedFrame. -/
def Obligations.DamagedReportsFail : Prop :=
  ∀ (s : State) (v : Variant) (body : Bytes) (cks : Byte),
    let f := reportBytes s.par.raw v body cks
    (cks ≠ ck s.par.raw.ck f.dropLast → exec (reportInstr v body cks) s =
      .next { s with out := s.out ++ [.failure .checksumMismatch] }) ∧
    (cks = ck s.par.raw.ck f.dropLast → f.length ≠ reportLen s.par.raw v → exec (reportInstr v body cks) s =
      .next { s with out := s.out ++ [.failure .malformedFrame] })

/-- R85 (the uncovered indices follow from the layouts, decisions D19 to D21): two valid reports of one length that
agree on the bytes the layout covers decode alike. -/
def Obligations.UncoveredBytesDoNotMatter : Prop :=
  ∀ (P : Params) (f g : Bytes) (co2f : Nat), f.length = g.length →
    precheck P.raw f = none → precheck P.raw g = none →
    (f[3]? = some 0x01#8 → (∀ i, i < 31 → f[i]? = g[i]?) →
      decodeFrame P.raw f false co2f = decodeFrame P.raw g false co2f) ∧
    (f[3]? = some 0x02#8 → (∀ i, (i < 10 ∨ 13 ≤ i ∧ i < 20 ∨ 24 ≤ i ∧ i < 31) → f[i]? = g[i]?) →
      decodeFrame P.raw f false co2f = decodeFrame P.raw g false co2f) ∧
    (P.raw.layoutUsb = layoutUsbDefault → f[3]? = some 0x03#8 →
      (∀ i, (i < 10 ∨ 13 ≤ i ∧ i < 32) → f[i]? = g[i]?) →
      decodeFrame P.raw f false co2f = decodeFrame P.raw g false co2f)

/-- R169: the fee asymmetry: for equal scaled energy and price the AC fee is 1000 times the DC fee; for equal raw
energy and price the mantissas are equal and the AC fee is 10^6 times the DC fee. -/
def Obligations.FeeAsymmetryIsExact : Prop :=
  ∀ (P : RawParams) (f g : Bytes) (c c' : Nat) (a : AcReading) (d : DcReading),
    decAc P f c = .ok (.ac a) → decDc P g c' = .ok (.dc d) →
    (a.energyMwh = d.energyMwh → a.priceC = d.priceC →
      (a.feeMant : ℚ) * 10 ^ a.feeExp = 1000 * ((d.feeMant : ℚ) * 10 ^ d.feeExp)) ∧
    (u32be f 13 = u32be g 13 → u24be f 17 = u24be g 17 →
      a.feeMant = d.feeMant ∧ (a.feeMant : ℚ) * 10 ^ a.feeExp = 10 ^ 6 * ((d.feeMant : ℚ) * 10 ^ d.feeExp))

/-- R109, R177 (decision D24): every field of an AC and a DC Reading fits its width, for any 32-bit factor. -/
def Obligations.ReadingFieldsFitTheirWidths : Prop :=
  ∀ (P : RawParams) (f : Bytes) (co2f : Nat), co2f < 2 ^ 32 →
    (∀ r, decAc P f co2f = .ok (.ac r) →
      r.voltageMv < 2 ^ 31 ∧ r.currentMa < 2 ^ 24 ∧ r.powerMw < 2 ^ 31 ∧ r.energyMwh < 2 ^ 46 ∧ r.priceC < 2 ^ 24 ∧
      r.freqDhz < 2 ^ 16 ∧ r.pfMilli < 2 ^ 16 ∧ r.tempC < 2 ^ 16 ∧ r.dur.h < 2 ^ 16 ∧ r.dur.m < 2 ^ 8 ∧
      r.dur.s < 2 ^ 8 ∧ r.co2 < 2 ^ 59 ∧ r.feeMant < 2 ^ 56) ∧
    (∀ r, decDc P f co2f = .ok (.dc r) →
      r.voltageMv < 2 ^ 31 ∧ r.currentMa < 2 ^ 24 ∧ r.energyMwh < 2 ^ 46 ∧ r.priceC < 2 ^ 24 ∧
      r.tempC < 2 ^ 16 ∧ r.dur.h < 2 ^ 16 ∧ r.dur.m < 2 ^ 8 ∧ r.dur.s < 2 ^ 8 ∧ r.powerMant < 2 ^ 48 ∧
      r.co2 < 2 ^ 59 ∧ r.feeMant < 2 ^ 56)

/-- R220: the codes of err_code, and none for a success (decision D27). -/
def Obligations.FailureCodesAreTheTable : Prop :=
  errCode none = 0#3 ∧ errCode (some .malformedFrame) = 1#3 ∧ errCode (some .checksumMismatch) = 2#3 ∧
  errCode (some .unexpectedMessageType) = 3#3 ∧ errCode (some .unknownDeviceType) = 4#3 ∧
  errCode (some .invalidOperation) = 5#3

/-! ### The primitive codecs -/

/-- R11, R104: a big-endian write read back gives the value, and leaves every other byte; and the four bytes of
PUT32BE read back give the value. -/
def Obligations.WrittenValuesReadBack : Prop :=
  (∀ (f : Bytes) (off n v : Nat), off + n ≤ f.length → v < 256 ^ n →
    memRead (memWrite f off n v) off n = v ∧
    ∀ i, ¬ (off ≤ i ∧ i < off + n) → (memWrite f off n v)[i]? = f[i]?) ∧
  (∀ v : Word32, u32be (put32be v) 0 = v.toNat)

/-- R105: the laws of clamp (that it is signed is decision D28). -/
def Obligations.ClampStaysInRangeAndIsMonotone : Prop :=
  ∀ x y lo hi : Int, lo ≤ hi →
    (x < lo → clamp x lo hi = lo) ∧ (hi < x → clamp x lo hi = hi) ∧ (lo ≤ x → x ≤ hi → clamp x lo hi = x) ∧
    (lo ≤ clamp x lo hi ∧ clamp x lo hi ≤ hi) ∧ clamp (clamp x lo hi) lo hi = clamp x lo hi ∧
    (x ≤ y → clamp x lo hi ≤ clamp y lo hi)

/-- R106 (decision D25): round_half_up(a / b) is floor(a / b + 1/2) on rationals. -/
def Obligations.RoundHalfUpIsTheRationalRounding : Prop :=
  ∀ a b : Nat, 0 < b → (roundHalfUp a b : Int) = ⌊((a : ℚ) / (b : ℚ)) + 1 / 2⌋

/-- R110 (decision D22): DEC is the shortest string of ASCII digits with that value; DECPAD pads it with zeros to the
width and never cuts it. -/
def Obligations.DecIsTheShortestDecimalRendering : Prop :=
  ∀ n w : Nat,
    (∀ b ∈ dec n, 0x30 ≤ b.toNat ∧ b.toNat ≤ 0x39) ∧
    (dec n).foldl (fun a b => a * 10 + (b.toNat - 0x30)) 0 = n ∧
    (n = 0 → dec n = [0x30#8]) ∧ (n ≠ 0 → (dec n).head? ≠ some 0x30#8) ∧
    decPad n w = List.replicate (w - (dec n).length) 0x30#8 ++ dec n ∧
    (decPad n w).length = max w (dec n).length

/-- R107 (decision D22): the duration string is three fields with colons, nine characters long in the ordinary range
and never more than thirteen. -/
def Obligations.DurationStringHasItsLength : Prop :=
  ∀ h m s : Nat, h < 65536 → m < 256 → s < 256 →
    fmtDur h m s = decPad h 3 ++ [0x3A#8] ++ decPad m 2 ++ [0x3A#8] ++ decPad s 2 ∧
    (h ≤ 999 → m ≤ 99 → s ≤ 99 → (fmtDur h m s).length = 9) ∧ (fmtDur h m s).length ≤ 13

/-- R108 (decision D23): the backlight classes, their codes, and the label of SECONDS. -/
def Obligations.BacklightClassesAreTheThree : Prop :=
  ∀ b : Byte,
    (classifyBl b = .off ↔ b = 0#8) ∧ (classifyBl b = .on ↔ b = 60#8) ∧
    (classifyBl b = .seconds b ↔ b ≠ 0#8 ∧ b ≠ 60#8) ∧
    blClassCode .off = 0#2 ∧ blClassCode .on = 1#2 ∧ blClassCode (.seconds b) = 2#2 ∧
    blLabel (.seconds b) = some (dec b.toNat ++ [0x20#8, 0x73#8, 0x65#8, 0x63#8])

/-! ### Encodings -/

/-- Decoding the encoding of a well-formed instruction gives it back: all nineteen kinds, every operand value, every
instantiation (R72, R73, R74, R77; the layout of a port word is log entry 15, the operand for the checksum byte 18).
-/
def Obligations.DecodeOfEncodeIsTheInstruction : Prop :=
  ∀ (P : Params) (i : Instr), i.wf P.raw = true → decode P.raw (encode P.raw i) = .ok i

/-- A frame that decodes has one meaning: encoding what it decodes to gives the frame back, every byte of it (R74). -/
def Obligations.EncodeOfDecodeIsTheFrame : Prop :=
  ∀ (P : Params) (f : Bytes) (i : Instr), hdrLead f = true → decode P.raw f = .ok i → encode P.raw i = f

/-- A few words written out from the spec's encodings (log entries 15 and 16 for the port words) decode to the
instructions they stand for (R74, R77, R79). -/
def Obligations.WordsOfTheSpecDecode : Prop :=
  decodeTableWord 8 0x8 = some .clear ∧ decodeTableWord 8 0x4 = some .flush ∧
  decodeTableWord 8 0x2 = some (.feed 0#8 false) ∧ decodeTableWord 8 0x1 = some (.encode 0#4 0#8 0#32) ∧
  decodeTableWord 80 0xFF551101010000000057 = some (.resetWh 0x01#8 0x57#8) ∧
  decodeTableWord 80 0xFF55110122000F423F80 = some (.setPrice 0x01#8 999999#32 0x80#8) ∧
  decodeTableWord 80 0xFF551103120000000062 = some (.setMinusUsb 0x62#8)

/-! ### Two points the spec leaves open: the shared err_code port and the table LAYOUT[USB] -/

/-- R24, R32, R220, U14, read through outputPorts (log entry 23): err_code has a value exactly when err_valid or enc_err is 1; it is
the code of the step's failure, 5 for a request that fails; where a frame and a request fail in one step the spec does not
say which code the port shows, and the model says only that it is one of the two (log entry 28). -/
def Obligations.ErrCodeShowsTheFailureOfTheStep : Prop :=
  ∀ s t : State, step s = .next t →
    let p := outputPorts t.out
    (p.errCode = none ↔ p.errValid = false ∧ p.encErr = false) ∧
    (p.errValid = false → p.encErr = true → p.errCode = some 5#3) ∧
    (p.errValid = true → p.encErr = false →
      ∃ k, k ≠ .invalidOperation ∧ .failure k ∈ t.out ∧ p.errCode = some (errCode (some k))) ∧
    (p.errValid = true → p.encErr = true →
      ∃ k, k ≠ .invalidOperation ∧ .failure k ∈ t.out ∧
        (p.errCode = some (errCode (some k)) ∨ p.errCode = some 5#3))

/-- R159, R170 to R172, C9, for every instance of the OPEN table LAYOUT[USB] (its form, and the values derived where the
default derives none, are the model's choice: log entry 7): a right USB report decodes to exactly the fields of the table,
each its bytes times its multiplier; a derived power is voltage × current / 1000, exactly; a co2 is that of R162; a fee is
energy × price / D, exactly; and what the table does not derive, or lacks the fields for, is not there. -/
def Obligations.UsbReportDecodesByItsTable : Prop :=
  ∀ (s : State) (body : Bytes) (cks : Byte),
    let f := reportBytes s.par.raw .usb body cks
    let l := s.par.raw.layoutUsb
    let num : Desc → Nat := fun d => memRead f d.off d.n * d.mult
    f.length = s.par.raw.lenUsb → cks = ck s.par.raw.ck f.dropLast →
    ∃ r : UsbReading, exec (.reportUsb body cks) s = .next { s with out := s.out ++ [.reading (.usb r)] } ∧
      (r.voltageMv = l.voltage.map num ∧ r.currentMa = l.current.map num ∧ r.powerMw = l.power.map num ∧
        r.energyMwh = l.energy.map num ∧ r.priceC = l.price.map num ∧ r.freqDhz = l.freq.map num ∧
        r.pfMilli = l.pf.map num ∧ r.dminusMv = l.dminus.map num ∧ r.dplusMv = l.dplus.map num ∧
        r.chargeMah = l.charge.map num ∧ r.tempC = l.temp.map num ∧ r.extra = l.extra.map num) ∧
      (r.dur = l.durOff.map (durationOf f) ∧ r.blRaw = l.blOff.map (fun o => BitVec.ofNat 8 (u8 f o)) ∧
        r.blClass = l.blOff.map (fun o => classifyBl (BitVec.ofNat 8 (u8 f o)))) ∧
      (∀ v c, l.derivesPower = true → r.voltageMv = some v → r.currentMa = some c →
        ∃ p, r.derivedPower = some p ∧ (p.mant : ℚ) * 10 ^ p.exp = (v : ℚ) * c / 1000) ∧
      (l.derivesPower = false ∨ r.voltageMv = none ∨ r.currentMa = none → r.derivedPower = none) ∧
      (∀ e, l.derivesCo2 = true → r.energyMwh = some e →
        r.co2 = some ((e * co2fOfInputs s.co2fSel s.co2fPpm + 500000) / 1000000)) ∧
      (l.derivesCo2 = false ∨ r.energyMwh = none → r.co2 = none) ∧
      (∀ e p, l.feeDiv ≠ 0 → r.energyMwh = some e → r.priceC = some p →
        ∃ q, r.fee = some q ∧ (q.num : ℚ) / q.den = (e : ℚ) * ((p : ℚ) / 100) / l.feeDiv) ∧
      (l.feeDiv = 0 ∨ r.energyMwh = none ∨ r.priceC = none → r.fee = none)
end

