-- ==== Sys2Proof/Laws/State.lean ====
section
/-! SUPPORT. For every update of the state and every field: what the field is after it. All hold by rfl, so that no
later proof unfolds a record update. -/

namespace Sys2Proof.Machine

/-! ### emit -/

@[simp] theorem State.emit_rsm (s : State) (evs : List Event) : (s.emit evs).rsm = s.rsm := rfl
@[simp] theorem State.emit_cpos (s : State) (evs : List Event) : (s.emit evs).cpos = s.cpos := rfl
@[simp] theorem State.emit_hold (s : State) (evs : List Event) : (s.emit evs).hold = s.hold := rfl
@[simp] theorem State.emit_co2fSel (s : State) (evs : List Event) : (s.emit evs).co2fSel = s.co2fSel := rfl
@[simp] theorem State.emit_co2fPpm (s : State) (evs : List Event) : (s.emit evs).co2fPpm = s.co2fPpm := rfl
@[simp] theorem State.emit_inputs (s : State) (evs : List Event) : (s.emit evs).inputs = s.inputs := rfl
@[simp] theorem State.emit_out (s : State) (evs : List Event) : (s.emit evs).out = s.out ++ evs := rfl
@[simp] theorem State.emit_par (s : State) (evs : List Event) : (s.emit evs).par = s.par := rfl
@[simp] theorem State.emit_co2f (s : State) (evs : List Event) : (s.emit evs).co2f = s.co2f := rfl

/-! ### setRsm -/

@[simp] theorem State.setRsm_rsm (s : State) (r : ReassemblyState) : (s.setRsm r).rsm = r := rfl
@[simp] theorem State.setRsm_cpos (s : State) (r : ReassemblyState) : (s.setRsm r).cpos = s.cpos := rfl
@[simp] theorem State.setRsm_hold (s : State) (r : ReassemblyState) : (s.setRsm r).hold = s.hold := rfl
@[simp] theorem State.setRsm_co2fSel (s : State) (r : ReassemblyState) : (s.setRsm r).co2fSel = s.co2fSel := rfl
@[simp] theorem State.setRsm_co2fPpm (s : State) (r : ReassemblyState) : (s.setRsm r).co2fPpm = s.co2fPpm := rfl
@[simp] theorem State.setRsm_inputs (s : State) (r : ReassemblyState) : (s.setRsm r).inputs = s.inputs := rfl
@[simp] theorem State.setRsm_out (s : State) (r : ReassemblyState) : (s.setRsm r).out = s.out := rfl
@[simp] theorem State.setRsm_par (s : State) (r : ReassemblyState) : (s.setRsm r).par = s.par := rfl
@[simp] theorem State.setRsm_co2f (s : State) (r : ReassemblyState) : (s.setRsm r).co2f = s.co2f := rfl

/-! ### setCpos -/

@[simp] theorem State.setCpos_rsm (s : State) (c : ChunkPos) : (s.setCpos c).rsm = s.rsm := rfl
@[simp] theorem State.setCpos_cpos (s : State) (c : ChunkPos) : (s.setCpos c).cpos = c := rfl
@[simp] theorem State.setCpos_hold (s : State) (c : ChunkPos) : (s.setCpos c).hold = s.hold := rfl
@[simp] theorem State.setCpos_co2fSel (s : State) (c : ChunkPos) : (s.setCpos c).co2fSel = s.co2fSel := rfl
@[simp] theorem State.setCpos_co2fPpm (s : State) (c : ChunkPos) : (s.setCpos c).co2fPpm = s.co2fPpm := rfl
@[simp] theorem State.setCpos_inputs (s : State) (c : ChunkPos) : (s.setCpos c).inputs = s.inputs := rfl
@[simp] theorem State.setCpos_out (s : State) (c : ChunkPos) : (s.setCpos c).out = s.out := rfl
@[simp] theorem State.setCpos_par (s : State) (c : ChunkPos) : (s.setCpos c).par = s.par := rfl
@[simp] theorem State.setCpos_co2f (s : State) (c : ChunkPos) : (s.setCpos c).co2f = s.co2f := rfl

/-! ### setHold -/

@[simp] theorem State.setHold_rsm (s : State) (b : Byte) : (s.setHold b).rsm = s.rsm := rfl
@[simp] theorem State.setHold_cpos (s : State) (b : Byte) : (s.setHold b).cpos = s.cpos := rfl
@[simp] theorem State.setHold_hold (s : State) (b : Byte) : (s.setHold b).hold = b := rfl
@[simp] theorem State.setHold_co2fSel (s : State) (b : Byte) : (s.setHold b).co2fSel = s.co2fSel := rfl
@[simp] theorem State.setHold_co2fPpm (s : State) (b : Byte) : (s.setHold b).co2fPpm = s.co2fPpm := rfl
@[simp] theorem State.setHold_inputs (s : State) (b : Byte) : (s.setHold b).inputs = s.inputs := rfl
@[simp] theorem State.setHold_out (s : State) (b : Byte) : (s.setHold b).out = s.out := rfl
@[simp] theorem State.setHold_par (s : State) (b : Byte) : (s.setHold b).par = s.par := rfl
@[simp] theorem State.setHold_co2f (s : State) (b : Byte) : (s.setHold b).co2f = s.co2f := rfl

/-! ### append -/

@[simp] theorem State.append_rsm (s : State) (x : Byte) : (s.append x).rsm = Machine.append s.par.raw.bufCap x s.rsm := rfl
@[simp] theorem State.append_cpos (s : State) (x : Byte) : (s.append x).cpos = s.cpos := rfl
@[simp] theorem State.append_hold (s : State) (x : Byte) : (s.append x).hold = s.hold := rfl
@[simp] theorem State.append_co2fSel (s : State) (x : Byte) : (s.append x).co2fSel = s.co2fSel := rfl
@[simp] theorem State.append_co2fPpm (s : State) (x : Byte) : (s.append x).co2fPpm = s.co2fPpm := rfl
@[simp] theorem State.append_inputs (s : State) (x : Byte) : (s.append x).inputs = s.inputs := rfl
@[simp] theorem State.append_out (s : State) (x : Byte) : (s.append x).out = s.out := rfl
@[simp] theorem State.append_par (s : State) (x : Byte) : (s.append x).par = s.par := rfl
@[simp] theorem State.append_co2f (s : State) (x : Byte) : (s.append x).co2f = s.co2f := rfl

/-! ### takeBeat -/

@[simp] theorem State.takeBeat_rsm (s : State) (b : Beat) (rest : List Beat) : (s.takeBeat b rest).rsm = s.rsm := rfl
@[simp] theorem State.takeBeat_cpos (s : State) (b : Beat) (rest : List Beat) : (s.takeBeat b rest).cpos = s.cpos := rfl
@[simp] theorem State.takeBeat_hold (s : State) (b : Beat) (rest : List Beat) : (s.takeBeat b rest).hold = s.hold := rfl
@[simp] theorem State.takeBeat_co2fSel (s : State) (b : Beat) (rest : List Beat) : (s.takeBeat b rest).co2fSel = b.co2fSel := rfl
@[simp] theorem State.takeBeat_co2fPpm (s : State) (b : Beat) (rest : List Beat) : (s.takeBeat b rest).co2fPpm = b.co2fPpm := rfl
@[simp] theorem State.takeBeat_inputs (s : State) (b : Beat) (rest : List Beat) : (s.takeBeat b rest).inputs = rest := rfl
@[simp] theorem State.takeBeat_out (s : State) (b : Beat) (rest : List Beat) : (s.takeBeat b rest).out = [] := rfl
@[simp] theorem State.takeBeat_par (s : State) (b : Beat) (rest : List Beat) : (s.takeBeat b rest).par = s.par := rfl

/-! ### idle -/

@[simp] theorem State.idle_rsm (s : State) : (s.idle).rsm = s.rsm := rfl
@[simp] theorem State.idle_cpos (s : State) : (s.idle).cpos = s.cpos := rfl
@[simp] theorem State.idle_hold (s : State) : (s.idle).hold = s.hold := rfl
@[simp] theorem State.idle_co2fSel (s : State) : (s.idle).co2fSel = s.co2fSel := rfl
@[simp] theorem State.idle_co2fPpm (s : State) : (s.idle).co2fPpm = s.co2fPpm := rfl
@[simp] theorem State.idle_inputs (s : State) : (s.idle).inputs = s.inputs := rfl
@[simp] theorem State.idle_out (s : State) : (s.idle).out = [] := rfl
@[simp] theorem State.idle_par (s : State) : (s.idle).par = s.par := rfl
@[simp] theorem State.idle_co2f (s : State) : (s.idle).co2f = s.co2f := rfl

/-! ### raise -/

@[simp] theorem State.raise_rsm (s : State) (k : FailureKind) : (s.raise k).rsm = s.rsm := rfl
@[simp] theorem State.raise_cpos (s : State) (k : FailureKind) : (s.raise k).cpos = s.cpos := rfl
@[simp] theorem State.raise_hold (s : State) (k : FailureKind) : (s.raise k).hold = s.hold := rfl
@[simp] theorem State.raise_co2fSel (s : State) (k : FailureKind) : (s.raise k).co2fSel = s.co2fSel := rfl
@[simp] theorem State.raise_co2fPpm (s : State) (k : FailureKind) : (s.raise k).co2fPpm = s.co2fPpm := rfl
@[simp] theorem State.raise_inputs (s : State) (k : FailureKind) : (s.raise k).inputs = s.inputs := rfl
@[simp] theorem State.raise_out (s : State) (k : FailureKind) : (s.raise k).out = s.out ++ [.failure k] := rfl
@[simp] theorem State.raise_par (s : State) (k : FailureKind) : (s.raise k).par = s.par := rfl
@[simp] theorem State.raise_co2f (s : State) (k : FailureKind) : (s.raise k).co2f = s.co2f := rfl

/-! ### resetNow -/

@[simp] theorem State.resetNow_rsm (s : State) : (s.resetNow).rsm = emptyRsm := rfl
@[simp] theorem State.resetNow_cpos (s : State) : (s.resetNow).cpos = .between := rfl
@[simp] theorem State.resetNow_hold (s : State) : (s.resetNow).hold = State.reset.hold := rfl
@[simp] theorem State.resetNow_co2fSel (s : State) : (s.resetNow).co2fSel = s.co2fSel := rfl
@[simp] theorem State.resetNow_co2fPpm (s : State) : (s.resetNow).co2fPpm = s.co2fPpm := rfl
@[simp] theorem State.resetNow_inputs (s : State) : (s.resetNow).inputs = s.inputs := rfl
@[simp] theorem State.resetNow_out (s : State) : (s.resetNow).out = [] := rfl
@[simp] theorem State.resetNow_par (s : State) : (s.resetNow).par = s.par := rfl
@[simp] theorem State.resetNow_co2f (s : State) : (s.resetNow).co2f = s.co2f := rfl

/-! ### present -/

@[simp] theorem State.present_rsm (s : State) (b : Beat) : (s.present b).rsm = s.rsm := rfl
@[simp] theorem State.present_cpos (s : State) (b : Beat) : (s.present b).cpos = s.cpos := rfl
@[simp] theorem State.present_hold (s : State) (b : Beat) : (s.present b).hold = s.hold := rfl
@[simp] theorem State.present_co2fSel (s : State) (b : Beat) : (s.present b).co2fSel = s.co2fSel := rfl
@[simp] theorem State.present_co2fPpm (s : State) (b : Beat) : (s.present b).co2fPpm = s.co2fPpm := rfl
@[simp] theorem State.present_inputs (s : State) (b : Beat) : (s.present b).inputs = b :: s.inputs := rfl
@[simp] theorem State.present_out (s : State) (b : Beat) : (s.present b).out = s.out := rfl
@[simp] theorem State.present_par (s : State) (b : Beat) : (s.present b).par = s.par := rfl
@[simp] theorem State.present_co2f (s : State) (b : Beat) : (s.present b).co2f = s.co2f := rfl

/-! ### flushPending -/

@[simp] theorem State.flushPending_rsm (s : State) : (s.flushPending).rsm = emptyRsm := rfl
@[simp] theorem State.flushPending_cpos (s : State) : (s.flushPending).cpos = s.cpos := rfl
@[simp] theorem State.flushPending_hold (s : State) : (s.flushPending).hold = s.hold := rfl
@[simp] theorem State.flushPending_co2fSel (s : State) : (s.flushPending).co2fSel = s.co2fSel := rfl
@[simp] theorem State.flushPending_co2fPpm (s : State) : (s.flushPending).co2fPpm = s.co2fPpm := rfl
@[simp] theorem State.flushPending_inputs (s : State) : (s.flushPending).inputs = s.inputs := rfl
@[simp] theorem State.flushPending_out (s : State) : (s.flushPending).out = s.out ++ pendingEvents s.par.raw s.co2f s.rsm := rfl
@[simp] theorem State.flushPending_par (s : State) : (s.flushPending).par = s.par := rfl
@[simp] theorem State.flushPending_co2f (s : State) : (s.flushPending).co2f = s.co2f := rfl

/-! ### runCommand -/

@[simp] theorem State.runCommand_rsm (s : State) (op : EncOp) (dev : Byte) (arg : Word32) : (s.runCommand op dev arg).rsm = s.rsm := rfl
@[simp] theorem State.runCommand_cpos (s : State) (op : EncOp) (dev : Byte) (arg : Word32) : (s.runCommand op dev arg).cpos = s.cpos := rfl
@[simp] theorem State.runCommand_hold (s : State) (op : EncOp) (dev : Byte) (arg : Word32) : (s.runCommand op dev arg).hold = s.hold := rfl
@[simp] theorem State.runCommand_co2fSel (s : State) (op : EncOp) (dev : Byte) (arg : Word32) : (s.runCommand op dev arg).co2fSel = s.co2fSel := rfl
@[simp] theorem State.runCommand_co2fPpm (s : State) (op : EncOp) (dev : Byte) (arg : Word32) : (s.runCommand op dev arg).co2fPpm = s.co2fPpm := rfl
@[simp] theorem State.runCommand_inputs (s : State) (op : EncOp) (dev : Byte) (arg : Word32) : (s.runCommand op dev arg).inputs = s.inputs := rfl
@[simp] theorem State.runCommand_out (s : State) (op : EncOp) (dev : Byte) (arg : Word32) : (s.runCommand op dev arg).out = s.out ++ [commandEvent s.par.raw op dev arg] := rfl
@[simp] theorem State.runCommand_par (s : State) (op : EncOp) (dev : Byte) (arg : Word32) : (s.runCommand op dev arg).par = s.par := rfl
@[simp] theorem State.runCommand_co2f (s : State) (op : EncOp) (dev : Byte) (arg : Word32) : (s.runCommand op dev arg).co2f = s.co2f := rfl

/-! ### reset -/

@[simp] theorem State.reset_rsm : State.reset.rsm = emptyRsm := rfl
@[simp] theorem State.reset_cpos : State.reset.cpos = .between := rfl
@[simp] theorem State.reset_inputs : State.reset.inputs = [] := rfl
@[simp] theorem State.reset_out : State.reset.out = [] := rfl
@[simp] theorem State.reset_par : State.reset.par = defaultParams := rfl
@[simp] theorem emptyRsm_buf : emptyRsm.buf = [] := rfl
@[simp] theorem emptyRsm_ovf : emptyRsm.ovf = false := rfl

end Sys2Proof.Machine
end

