-- ==== Sys2Proof/Laws/Memory.lean ====
section
/-! SUPPORT. The reassembly buffer: what each operation on it can do, and that each keeps its form (R35 (i), (ii)). -/

namespace Sys2Proof.Machine

/-! ### The form -/

theorem ReassemblyState.wf_iff (cap : Nat) (r : ReassemblyState) :
    r.wf cap = true ↔ r.buf.length ≤ cap ∧ (r.ovf = true → r.buf.length = cap) := by
  cases h : r.ovf <;> simp [ReassemblyState.wf, h]

@[simp] theorem emptyRsm_wf (cap : Nat) : emptyRsm.wf cap = true := by
  simp [ReassemblyState.wf_iff]

theorem reset_rsm_wf : State.reset.rsm.wf State.reset.par.raw.bufCap = true := by simp

/-! ### APPEND -/

/-- All that APPEND can do (R132). -/
theorem append_cases (cap : Nat) (x : Byte) (r : ReassemblyState) :
    (r.buf.length < cap ∧ append cap x r = ⟨r.buf ++ [x], r.ovf⟩) ∨
    (cap ≤ r.buf.length ∧ append cap x r = ⟨r.buf, true⟩) := by
  by_cases h : r.buf.length < cap
  · exact .inl ⟨h, by simp [append, h]⟩
  · exact .inr ⟨by omega, by simp [append, h]⟩

theorem append_wf {cap : Nat} {r : ReassemblyState} (x : Byte) (h : r.wf cap = true) :
    (append cap x r).wf cap = true := by
  rw [ReassemblyState.wf_iff] at h ⊢
  obtain ⟨hl, e⟩ | ⟨hl, e⟩ := append_cases cap x r
  · rw [e]
    refine ⟨by simp; omega, fun ho => ?_⟩
    have := h.2 ho
    omega
  · rw [e]
    exact ⟨h.1, fun _ => by simp; omega⟩

/-- A byte in the buffer stays where it is. -/
theorem append_readByte {cap : Nat} {r : ReassemblyState} (x : Byte) {i : Nat} (hi : i < r.buf.length) :
    (append cap x r).readByte i = r.readByte i := by
  obtain ⟨-, e⟩ | ⟨-, e⟩ := append_cases cap x r
  · simp [e, ReassemblyState.readByte, List.getElem?_append_left hi]
  · simp [e, ReassemblyState.readByte]

theorem append_length_ge (cap : Nat) (x : Byte) (r : ReassemblyState) :
    r.buf.length ≤ (append cap x r).buf.length := by
  obtain ⟨-, e⟩ | ⟨-, e⟩ := append_cases cap x r <;> simp [e]

/-- Where there is room the byte read at the end is the byte appended. -/
theorem append_readByte_new {cap : Nat} {r : ReassemblyState} (x : Byte) (h : r.buf.length < cap) :
    (append cap x r).readByte r.buf.length = some x := by
  simp [append, h, ReassemblyState.readByte]

/-! ### STORE -/

/-- All that STORE can do (R123): everything fits, or the rest is dropped and flagged. -/
theorem store_cases (cap : Nat) (c : Bytes) (r : ReassemblyState) :
    (c.length ≤ cap - r.buf.length ∧ store cap c r = ⟨r.buf ++ c, r.ovf⟩) ∨
    (cap - r.buf.length < c.length ∧ store cap c r = ⟨r.buf ++ c.take (cap - r.buf.length), true⟩) := by
  by_cases h : c.length ≤ cap - r.buf.length
  · exact .inl ⟨h, by simp [store, ovfAfter, List.take_of_length_le h, h]⟩
  · have h' : cap - r.buf.length < c.length := by omega
    exact .inr ⟨h', by simp [store, ovfAfter, h']⟩

theorem store_wf {cap : Nat} {r : ReassemblyState} (c : Bytes) (h : r.wf cap = true) :
    (store cap c r).wf cap = true := by
  rw [ReassemblyState.wf_iff] at h ⊢
  obtain ⟨hl, e⟩ | ⟨hl, e⟩ := store_cases cap c r
  · rw [e]
    refine ⟨by simp; omega, fun ho => ?_⟩
    have := h.2 ho
    simp
    omega
  · rw [e]
    refine ⟨?_, fun _ => ?_⟩ <;> simp <;> omega

@[simp] theorem store_nil (cap : Nat) (r : ReassemblyState) : store cap [] r = r := by
  simp [store, ovfAfter]

/-- STORE of a chunk is APPEND of its bytes one after the other (the ground of R133). -/
theorem store_cons (cap : Nat) (b : Byte) (c : Bytes) (r : ReassemblyState) :
    store cap (b :: c) r = store cap c (append cap b r) := by
  obtain ⟨hl, e⟩ | ⟨hl, e⟩ := append_cases cap b r
  · obtain ⟨k, hk⟩ : ∃ k, cap - r.buf.length = k + 1 := ⟨cap - r.buf.length - 1, by omega⟩
    have hk' : cap - (r.buf.length + 1) = k := by omega
    simp [store, e, ovfAfter, hk, hk']
  · have h0 : cap - r.buf.length = 0 := by omega
    simp [store, e, ovfAfter, h0]

end Sys2Proof.Machine
end

