-- ==== Sys2Proof/Laws/Ops.lean ====
section
/-! SUPPORT. The shared operations: for each, once, everything it can do. -/

namespace Sys2Proof.Machine

/-! ### Reading and writing bytes -/

/-- In range, the free value past the end plays no part. -/
theorem byteAt_of_lt {f : Bytes} {i : Nat} (h : i < f.length) : byteAt f i = f[i] := by
  simp [byteAt, List.getD_eq_getElem?_getD, List.getElem?_eq_getElem h]

theorem u8_lt (f : Bytes) (off : Nat) : u8 f off < 256 := by
  simpa [u8] using (byteAt f off).isLt

theorem memRead_lt (f : Bytes) (off n : Nat) : memRead f off n < 256 ^ n := by
  induction n with
  | zero => simp [memRead]
  | succ n ih =>
    have := (byteAt f (off + n)).isLt
    simp only [memRead, pow_succ]
    omega

theorem memRead_one (f : Bytes) (off : Nat) : memRead f off 1 = u8 f off := by
  simp [memRead, u8]

theorem memRead_two (f : Bytes) (off : Nat) : memRead f off 2 = u16be f off := by
  simp [memRead, u16be]

theorem memRead_three (f : Bytes) (off : Nat) : memRead f off 3 = u24be f off := by
  simp only [memRead, u24be, Nat.add_zero]
  omega

theorem memRead_four (f : Bytes) (off : Nat) : memRead f off 4 = u32be f off := by
  simp only [memRead, u32be, Nat.add_zero]
  omega

@[simp] theorem memWrite_length (f : Bytes) (off n v : Nat) : (memWrite f off n v).length = f.length := by
  induction n generalizing v with
  | zero => rfl
  | succ n ih => simp [memWrite, ih]

/-! ### The checksum -/

/-- Every admissible `CK` satisfies `CK_VECTORS` (R142). -/
theorem ck_vectors (c : CkSel) {r : Bytes × Byte} (h : r ∈ ckVectors) : ck c r.1 = r.2 := by
  have key : ∀ g : Bytes → Byte, vectorsHold g = true → g r.1 = r.2 := fun g hg => by
    simpa using List.all_eq_true.mp hg r h
  have fitted : vectorsHold ckFitted = true := by decide
  cases c with
  | fitted => exact key _ fitted
  | other n =>
    by_cases hn : vectorsHold (Config.freeCk n) = true
    · simpa [ck, hn] using key _ hn
    · simpa [ck, hn] using key _ fitted

/-! ### Parameters -/

/-- What well-formedness says of the capacity, the tag and the lengths (R7). -/
theorem Params.bounds (P : Params) :
    P.raw.reportTag ≠ cmdTag ∧ 36 ≤ P.raw.bufCap ∧
    (5 ≤ P.raw.lenAc ∧ P.raw.lenAc ≤ P.raw.bufCap) ∧ (5 ≤ P.raw.lenDc ∧ P.raw.lenDc ≤ P.raw.bufCap) ∧
    (5 ≤ P.raw.lenUsb ∧ P.raw.lenUsb ≤ P.raw.bufCap) := by
  have h := P.ok
  simp only [paramsWf, lenOk, Bool.and_eq_true, decide_eq_true_eq] at h
  unfold minFrameLen at h
  tauto

/-- What well-formedness says of the layouts (R157). -/
theorem Params.layouts (P : Params) :
    layoutAcFits P.raw.lenAc layoutAc = true ∧ layoutDcFits P.raw.lenDc layoutDc = true ∧
    layoutUsbFits P.raw.lenUsb P.raw.layoutUsb = true := by
  have h := P.ok
  simp only [paramsWf, Bool.and_eq_true] at h
  tauto

/-! ### The packet decoder -/

/-- The checks before the dispatch pass exactly on these frames (R152, R153). -/
theorem precheck_eq_none (P : RawParams) (f : Bytes) :
    precheck P f = none ↔ 5 ≤ f.length ∧ byteAt f 0 = hdr0 ∧ byteAt f 1 = hdr1 ∧
      byteAt f (f.length - 1) = ck P.ck f.dropLast ∧ byteAt f 2 = P.reportTag := by
  unfold precheck validate minFrameLen tagOf
  split
  · simp; omega
  · split
    · rename_i h; simp; intro _ h0 h1; exact absurd h (by simp [h0, h1])
    · rename_i hl hh
      push Not at hh
      split <;> simp_all

/-- DECODE answers a READING or a FAILURE of a received frame (R150: total, exactly one event). -/
theorem decodeFrame_isResult (P : RawParams) (f : Bytes) (ovf : Bool) (co2f : Nat) :
    (decodeFrame P f ovf co2f).isReading = true ∨ (decodeFrame P f ovf co2f).isDecodeFailure = true := by
  have ev : ∀ x : Except FailureKind Reading, (∀ k, x = .error k → k = .malformedFrame) →
      (eventOf x).isReading = true ∨ (eventOf x).isDecodeFailure = true := by
    intro x hx
    cases x with
    | ok r => exact .inl rfl
    | error k => rw [hx k rfl]; exact .inr rfl
  have hp : ∀ k, precheck P f = some k → (Event.failure k).isDecodeFailure = true := by
    intro k hk
    unfold precheck validate at hk
    split at hk
    · cases hk; rfl
    · split at hk
      · cases hk; rfl
      · split at hk
        · cases hk; rfl
        · split at hk
          · cases hk; rfl
          · cases hk
  unfold decodeFrame
  split
  · exact .inr rfl
  · split
    · rename_i k hk; exact .inr (hp k hk)
    · split
      · exact ev _ (by intro k; unfold decAc; split <;> simp_all)
      · exact ev _ (by intro k; unfold decDc; split <;> simp_all)
      · exact ev _ (by intro k; unfold decUsb; split <;> simp_all)
      · exact .inr rfl

/-- A derived power is voltage times current over 1000, in either of its two forms (R167, R172). -/
theorem powerOf_value (f : Bytes) (v c : Desc) :
    ((powerOf f v c).mant : ℚ) * 10 ^ (powerOf f v c).exp = (field f v : ℚ) * field f c / 1000 := by
  unfold powerOf field
  split
  · rename_i h
    obtain ⟨k, hk⟩ := Nat.dvd_of_mod_eq_zero h
    have hq : (v.mult : ℚ) * c.mult = 100 * k := by exact_mod_cast hk
    rw [hk, Nat.mul_div_cancel_left k (by norm_num)]
    push_cast
    norm_num
    linear_combination (-(rawField f v : ℚ) * rawField f c / 1000) * hq
  · push_cast
    norm_num
    ring

/-- The layout's bytes are all that well-formedness bounds of `LAYOUT[USB]` (U19). -/
theorem layoutUsbFits_iff (len : Nat) (l : UsbLayout) :
    layoutUsbFits len l = true ↔ ∀ d ∈ usbDescs l, descFits len d = true := by
  simp [layoutUsbFits]

/-! ### The output ports -/

@[simp] theorem showCode_none (c : BitVec 3) : showCode none c = c := rfl

/-- Two codes of one beat: the port shows one of them (log entry 28). -/
theorem showCode_some (a c : BitVec 3) : showCode (some a) c = a ∨ showCode (some a) c = c := by
  show (if _ then c else a) = a ∨ (if _ then c else a) = c
  split
  · exact .inr rfl
  · exact .inl rfl

/-- A failure of a received frame on the ports: err_valid, and its code shown. -/
theorem drivePort_decodeFailure (p : OutputPorts) {k : FailureKind} (h : k ≠ .invalidOperation) :
    drivePort p (.failure k) = { p with errValid := true, errCode := some (showCode p.errCode (errCode (some k))) } := by
  cases k <;> first | rfl | exact absurd rfl h

/-! ### Emissions -/

/-- An emission's events, written out (R122, R178). -/
theorem pendingEvents_eq (P : RawParams) (co2f : Nat) (r : ReassemblyState) :
    pendingEvents P co2f r =
      if r.buf = [] then [] else [.frame r.buf r.ovf, decodeFrame P r.buf r.ovf co2f] := by
  unfold pendingEvents ReassemblyState.isEmpty
  cases r.buf <;> simp

/-- An emission's events have the shape of R33. -/
theorem pendingEvents_shape (P : RawParams) (co2f : Nat) (r : ReassemblyState) :
    receiveShape (pendingEvents P co2f r) = true := by
  unfold pendingEvents
  split
  · rfl
  · simpa [receiveShape, Bool.or_eq_true] using decodeFrame_isResult P r.buf r.ovf co2f

/-- What the meaning of a report frame kind does to the state: one event more. -/
theorem decodeAs_eq (s : State) (f : Bytes) (r : Except FailureKind Reading) :
    s.decodeAs f r = s.emit [match precheck s.par.raw f with | some k => .failure k | none => eventOf r] := by
  unfold State.decodeAs State.raise
  cases h : precheck s.par.raw f <;> rfl

/-! ### The command encoder -/

/-- The devices of the dispatch (R155). -/
theorem dispatch_eq_none (d : Byte) : dispatch d = none ↔ d ≠ 0x01#8 ∧ d ≠ 0x02#8 ∧ d ≠ 0x03#8 := by
  unfold dispatch
  split
  · simp_all
  · split
    · simp_all
    · split <;> simp_all

/-- An operation gives a frame or InvalidOperation (R190, R193). -/
theorem commandEvent_cases (P : RawParams) (op : EncOp) (dev : Byte) (arg : Word32) :
    ((dispatch dev = none) ∧ commandEvent P op dev arg = .failure .invalidOperation) ∨
    ((dispatch dev ≠ none) ∧ commandEvent P op dev arg =
      .encoded (assemble P dev (opcodeRom op (dev == 0x03#8)).1 (valueOf (opcodeRom op (dev == 0x03#8)).2 arg))) := by
  cases h : dispatch dev with
  | none => exact .inl ⟨rfl, by simp [commandEvent, h]⟩
  | some v => exact .inr ⟨by simp, by simp [commandEvent, h, deviceByte]⟩

/-- An assembled frame, its value's bytes written out (R194). -/
theorem assemble_eq (P : RawParams) (dev opc : Byte) (v : Word32) :
    assemble P dev opc v = commandFrame P dev opc (v.extractLsb' 24 8) (v.extractLsb' 16 8) (v.extractLsb' 8 8)
      (v.extractLsb' 0 8) := rfl

theorem encodeEvent_shape (P : RawParams) (op : BitVec 4) (dev : Byte) (arg : Word32) :
    transmitShape [encodeEvent P op dev arg] = true := by
  unfold encodeEvent
  split
  · rfl
  · rename_i o _
    obtain ⟨-, h⟩ | ⟨-, h⟩ := commandEvent_cases P o dev arg <;> simp [h, transmitShape]

/-! ### The reassembler -/

/-- CLEAR and FLUSH run between chunks, and only there (R262). -/
theorem betweenChunks_eq_next {s s' t : State} :
    betweenChunks s s' = .next t ↔ s.cpos = .between ∧ s' = t := by
  unfold betweenChunks
  split <;> simp_all

/-- All that the decision on a chunk's second byte can do (R132). -/
theorem decideHeader_cases (s : State) (b : Byte) :
    ((s.hold = hdr0 ∧ b = hdr1) ∧ s.decideHeader b = s.flushPending) ∨
    (¬ (s.hold = hdr0 ∧ b = hdr1) ∧ s.decideHeader b = s) := by
  unfold State.decideHeader
  split
  · exact .inl ⟨‹_›, rfl⟩
  · exact .inr ⟨‹_›, rfl⟩

/-- All that a FEED beat can do (R132). -/
theorem execFeed_cases (b : Byte) (last : Bool) (s : State) :
    (s.cpos = .between ∧ last = true ∧ execFeed b last s = .next (s.append b)) ∨
    (s.cpos = .between ∧ last = false ∧ execFeed b last s = .next ((s.setHold b).setCpos .one)) ∨
    (s.cpos = .one ∧ execFeed b last s =
      .next ((((s.decideHeader b).append s.hold).append b).setCpos (afterByte last))) ∨
    (s.cpos = .more ∧ execFeed b last s = .next ((s.append b).setCpos (afterByte last))) := by
  cases hc : s.cpos <;> cases last <;> simp [execFeed, hc]

/-! ### A run of instructions -/

@[simp] theorem runInstrs_nil (s : State) : runInstrs [] s = .next s := rfl

theorem runInstrs_cons (i : Instr) (is : List Instr) (s : State) :
    runInstrs (i :: is) s = match exec i s with
      | .next s' => runInstrs is s'
      | .fault r => .fault r
      | .refused r => .refused r := rfl

@[simp] theorem runInstrs_one (i : Instr) (s : State) : runInstrs [i] s = exec i s := by
  rw [runInstrs_cons]
  cases exec i s <;> rfl

/-- An invariant that every instruction keeps is kept by a run of instructions. -/
theorem runInstrs_keeps {p : State → Prop} (is : List Instr)
    (h : ∀ i ∈ is, ∀ s t, p s → exec i s = .next t → p t) {s t : State} (hs : p s)
    (ht : runInstrs is s = .next t) : p t := by
  induction is generalizing s with
  | nil => cases ht; exact hs
  | cons i is ih =>
    rw [runInstrs_cons] at ht
    cases hi : exec i s with
    | next s' =>
      rw [hi] at ht
      exact ih (fun j hj => h j (List.mem_cons_of_mem _ hj)) (h i List.mem_cons_self s s' hs hi) ht
    | fault r => rw [hi] at ht; cases ht
    | refused r => rw [hi] at ht; cases ht

/-- An invariant that every instruction keeps, and that does not speak of the ports, is kept by a step. -/
theorem step_keeps {p : State → Prop} (hexec : ∀ i s t, p s → exec i s = .next t → p t)
    (hidle : ∀ s, p s → p s.idle) (htake : ∀ s b rest, p s → p (s.takeBeat b rest)) {s t : State} (hs : p s)
    (ht : step s = .next t) : p t := by
  unfold step at ht
  split at ht
  · cases ht; exact hidle s hs
  · exact runInstrs_keeps _ (fun i _ => hexec i) (htake s _ _ hs) ht

end Sys2Proof.Machine
end

