-- ==== Sys2Proof/Laws/Decode.lean ====
section
/-! SUPPORT. The decoder and the encoder: the words and bytes they read and write, and what decode answers on each of the
three formats. -/

namespace Sys2Proof

open Sys2Proof.Machine

/-! ### Words and their bytes -/

theorem word32Of_toNat (a b c d : Byte) :
    (word32Of a b c d).toNat = a.toNat * 16777216 + b.toNat * 65536 + c.toNat * 256 + d.toNat := by
  unfold word32Of
  have h2 := b.isLt
  have h3 := c.isLt
  have h4 := d.isLt
  simp only [BitVec.toNat_append]
  rw [← Nat.shiftLeft_add_eq_or_of_lt h4, ← Nat.shiftLeft_add_eq_or_of_lt h3, ← Nat.shiftLeft_add_eq_or_of_lt h2]
  simp only [Nat.shiftLeft_eq]
  omega

theorem byteOfWord_toNat (v : Word32) (k : Nat) : (v.extractLsb' k 8).toNat = v.toNat / 2 ^ k % 256 := by
  simp [BitVec.extractLsb'_toNat, Nat.shiftRight_eq_div_pow]

theorem byteOfWord_eq (v : Word32) (k : Nat) : v.extractLsb' k 8 = BitVec.ofNat 8 (v.toNat / 2 ^ k) := by
  apply BitVec.eq_of_toNat_eq
  rw [byteOfWord_toNat]
  simp

theorem bytesOf32_word32Of (a b c d : Byte) : bytesOf32 (word32Of a b c d) = [a, b, c, d] := by
  have h1 := a.isLt
  have h2 := b.isLt
  have h3 := c.isLt
  have h4 := d.isLt
  unfold bytesOf32
  congr 1
  · apply BitVec.eq_of_toNat_eq; rw [byteOfWord_toNat, word32Of_toNat]; norm_num; omega
  congr 1
  · apply BitVec.eq_of_toNat_eq; rw [byteOfWord_toNat, word32Of_toNat]; norm_num; omega
  congr 1
  · apply BitVec.eq_of_toNat_eq; rw [byteOfWord_toNat, word32Of_toNat]; norm_num; omega
  congr 1
  · apply BitVec.eq_of_toNat_eq; rw [byteOfWord_toNat, word32Of_toNat]; norm_num; omega

theorem word32Of_bytes (v : Word32) :
    word32Of (v.extractLsb' 24 8) (v.extractLsb' 16 8) (v.extractLsb' 8 8) (v.extractLsb' 0 8) = v := by
  have := v.isLt
  apply BitVec.eq_of_toNat_eq
  rw [word32Of_toNat]
  simp only [byteOfWord_toNat]
  norm_num
  omega

/-! ### The three formats -/

/-- The port word of a beat presents that beat. -/
theorem beatOfPortWord_portWordOfBeat (sel : Bool) (ppm : Word32) (b : Beat) :
    beatOfPortWord sel ppm (portWordOfBeat b) = { b with co2fSel := sel, co2fPpm := ppm } := by
  obtain ⟨c, f, rv, rd, rl, er, eo, ed, ea, cs, cp⟩ := b
  have e4 : (BitVec.setWidth 8 eo).extractLsb' 0 4 = eo := by
    apply BitVec.eq_of_toNat_eq
    simp [BitVec.extractLsb'_toNat]
    omega
  have e32 := word32Of_bytes ea
  cases c <;> cases f <;> cases rv <;> cases rl <;> cases er <;>
    simp [beatOfPortWord, portWordOfBeat, portWord, patternByte, byteOr0, bytesOf32, e4, e32]

/-- A port word decodes to the one instruction of its beat. -/
theorem decode_portWordOfBeat (P : RawParams) (b : Beat) {i : Instr} (h : instrsOfBeat b = [i]) :
    decode P (portWordOfBeat b) = .ok i := by
  have hn : patternByte b.clear b.flush b.rxValid b.encReq ≠ 0xFF#8 := by
    cases b.clear <;> cases b.flush <;> cases b.rxValid <;> cases b.encReq <;> decide
  have hz : (patternByte b.clear b.flush b.rxValid b.encReq).extractLsb' 4 4 = 0#4 := by
    cases b.clear <;> cases b.flush <;> cases b.rxValid <;> cases b.encReq <;> decide
  have hl : (BitVec.zeroExtend 8 (BitVec.ofBool b.rxLast)).extractLsb' 1 7 = 0#7 := by cases b.rxLast <;> decide
  have ho : ∀ op : BitVec 4, (BitVec.zeroExtend 8 op).extractLsb' 4 4 = 0#4 := by decide
  have hp : decode P (portWordOfBeat b) = decodePort (portWordOfBeat b) := by
    simp [decode, portWordOfBeat, portWord, bytesOf32, hn, portWordLen]
  have hb : instrsOfBeat (beatOfPortWord false 0#32 (portWordOfBeat b)) = [i] := by
    rw [beatOfPortWord_portWordOfBeat]; exact h
  rw [hp, decodePort, hb, if_neg]
  simp [portWordOfBeat, portWord, byteOr0, hz, hl, ho]

theorem decode_commandBytes (P : RawParams) (dev opc : Byte) (v : Word32) (cks : Byte) :
    decode P (commandBytes dev opc v cks) = decodeCommand dev opc v cks := by
  simp [decode, commandBytes, bytesOf32, word32Of_bytes]

theorem decode_reportBytes (P : RawParams) (hP : P.reportTag ≠ 0x11#8) (v : Variant) (body : Bytes) (cks : Byte) :
    decode P (reportBytes P v body cks) =
      if body.length + 5 = reportLen P v then .ok (reportInstr v body cks) else .error .wrongLength := by
  have hd : dispatch (deviceByte v) = some v := by cases v <;> rfl
  simp [decode, reportBytes, hP, decodeReport, hd]

/-! ### A frame as a number (R74) -/

theorem beNat_cons (x : Byte) (f : Bytes) : beNat (x :: f) = x.toNat * 256 ^ f.length + beNat f := by
  have g : ∀ (f : Bytes) (a : Nat),
      f.foldl (fun acc b => acc * 256 + b.toNat) a = a * 256 ^ f.length + f.foldl (fun acc b => acc * 256 + b.toNat) 0 := by
    intro f
    induction f with
    | nil => intro a; simp
    | cons y f ih => intro a; simp only [List.foldl_cons, List.length_cons]; rw [ih, ih (0 * 256 + y.toNat)]; ring
  unfold beNat
  rw [List.foldl_cons, g]
  simp

theorem beNat_lt (f : Bytes) : beNat f < 256 ^ f.length := by
  induction f with
  | nil => simp [beNat]
  | cons x f ih =>
    rw [beNat_cons, List.length_cons, pow_succ]
    have := x.isLt
    nlinarith [Nat.pow_pos (n := f.length) (show 0 < 256 by decide)]

/-- Writing a frame's number gives the frame. -/
theorem beBytes_beNat (f : Bytes) : beBytes f.length (beNat f) = f := by
  have key : ∀ (f : Bytes) (a : Nat), beBytes f.length (a * 256 ^ f.length + beNat f) = f := by
    intro f
    induction f with
    | nil => intro a; rfl
    | cons x f ih =>
      intro a
      have e : a * 256 ^ (f.length + 1) + (x.toNat * 256 ^ f.length + beNat f) =
          (a * 256 + x.toNat) * 256 ^ f.length + beNat f := by ring
      have hq : ((a * 256 + x.toNat) * 256 ^ f.length + beNat f) >>> (8 * f.length) = a * 256 + x.toNat := by
        rw [Nat.shiftRight_eq_div_pow, pow_mul, show (2 ^ 8 = 256) by norm_num, Nat.add_comm,
          Nat.add_mul_div_right _ _ (by positivity), Nat.div_eq_of_lt (beNat_lt f), Nat.zero_add]
      have hx := x.isLt
      rw [List.length_cons, beBytes, beNat_cons, e, ih, hq]
      congr 1
      apply BitVec.eq_of_toNat_eq
      rw [BitVec.toNat_ofNat]
      omega
  simpa using key f 0

end Sys2Proof
end

