-- ==== Sys2Proof/Laws/PerInstr.lean ====
section
/-! SUPPORT. The family EncodeLength: an encoded instruction has the length of its row of spec/opcode_table.json (nine
bytes for a port word, ten for a command frame, REPORT_LEN for a well-formed report). -/

namespace Sys2Proof.Laws

/-- The number of bytes of the words of an instruction (R71, R77). -/
def rowLength : Instr → Nat
  | .clear | .flush | .feed _ _ | .encode _ _ _ => portWordLen
  | .reportAc body _ | .reportDc body _ | .reportUsb body _ => body.length + 5
  | .resetWh _ _ | .resetAh _ _ | .resetDuration _ _ | .resetAll _ _ | .setBacklightTime _ _ _ | .setPrice _ _ _
  | .setup _ _ | .enter _ _ | .setPlus _ _ | .setPlusUsb _ | .setMinus _ _ | .setMinusUsb _ => Machine.cmdLen

/-- The encoding of `i` has the length of its row, for every instantiation. -/
def EncodeLength.Statement (i : Instr) : Prop := ∀ P : RawParams, (encode P i).length = rowLength i

theorem portWord_length (p d : Byte) (l : Bool) (op : BitVec 4) (dev : Byte) (arg : Word32) :
    (portWord p d l op dev arg).length = portWordLen := rfl

theorem commandBytes_length (dev opc : Byte) (v : Word32) (cks : Byte) :
    (commandBytes dev opc v cks).length = Machine.cmdLen := rfl

theorem reportBytes_length (P : RawParams) (v : Variant) (body : Bytes) (cks : Byte) :
    (reportBytes P v body cks).length = body.length + 5 := by
  simp [reportBytes]

theorem EncodeLength.clear : Statement .clear := fun _ => portWord_length ..
theorem EncodeLength.flush : Statement .flush := fun _ => portWord_length ..
theorem EncodeLength.feed (d : Byte) (l : Bool) : Statement (.feed d l) := fun _ => portWord_length ..
theorem EncodeLength.encode (op : BitVec 4) (dev : Byte) (arg : Word32) : Statement (.encode op dev arg) :=
  fun _ => portWord_length ..
theorem EncodeLength.resetWh (dev cks : Byte) : Statement (.resetWh dev cks) := fun _ => commandBytes_length ..
theorem EncodeLength.resetAh (dev cks : Byte) : Statement (.resetAh dev cks) := fun _ => commandBytes_length ..
theorem EncodeLength.resetDuration (dev cks : Byte) : Statement (.resetDuration dev cks) :=
  fun _ => commandBytes_length ..
theorem EncodeLength.resetAll (dev cks : Byte) : Statement (.resetAll dev cks) := fun _ => commandBytes_length ..
theorem EncodeLength.setBacklightTime (dev : Byte) (arg : Word32) (cks : Byte) :
    Statement (.setBacklightTime dev arg cks) := fun _ => commandBytes_length ..
theorem EncodeLength.setPrice (dev : Byte) (arg : Word32) (cks : Byte) : Statement (.setPrice dev arg cks) :=
  fun _ => commandBytes_length ..
theorem EncodeLength.setup (dev cks : Byte) : Statement (.setup dev cks) := fun _ => commandBytes_length ..
theorem EncodeLength.enter (dev cks : Byte) : Statement (.enter dev cks) := fun _ => commandBytes_length ..
theorem EncodeLength.setPlus (dev cks : Byte) : Statement (.setPlus dev cks) := fun _ => commandBytes_length ..
theorem EncodeLength.setPlusUsb (cks : Byte) : Statement (.setPlusUsb cks) := fun _ => commandBytes_length ..
theorem EncodeLength.setMinus (dev cks : Byte) : Statement (.setMinus dev cks) := fun _ => commandBytes_length ..
theorem EncodeLength.setMinusUsb (cks : Byte) : Statement (.setMinusUsb cks) := fun _ => commandBytes_length ..
theorem EncodeLength.reportAc (body : Bytes) (cks : Byte) : Statement (.reportAc body cks) :=
  fun P => reportBytes_length P ..
theorem EncodeLength.reportDc (body : Bytes) (cks : Byte) : Statement (.reportDc body cks) :=
  fun P => reportBytes_length P ..
theorem EncodeLength.reportUsb (body : Bytes) (cks : Byte) : Statement (.reportUsb body cks) :=
  fun P => reportBytes_length P ..

end Sys2Proof.Laws
end

