-- ==== Sys2Proof/Tests/Slice0.lean ====
section
/-! SUPPORT. Tests of one step, and a witness for the hypotheses of each statement. Expected values come from the spec:
the identifiers in the docstrings are those of 95_test_vectors.md; the words are written out from 30_encoding.md. -/

namespace Sys2Proof.Tests

open Sys2Proof Sys2Proof.Machine

/-! ### Helpers -/

/-- A frame of `n` bytes as the spec writes it, in hexadecimal. -/
def hex (n w : Nat) : Bytes := beBytes n w

/-- The AC example frame (R161). -/
def ac36 : Bytes := hex 36 0xFF5501010008FC0005DC000D7A000004D20000FA01F403DB0019000C22381E00000000EA

/-- The DC example frame (R166). -/
def dc36 : Bytes := hex 36 0xFF5501020004B50007D0000000000004D20000FA00000000001F000102033C0000000080

/-- The USB example frame (V-PPD-3). -/
def usb36 : Bytes := hex 36 0xFF5501030000330005DC000000000002FD003C010E000005DC001C00002D0700000000D7

/-- The reset state with these bytes buffered and the test factor 997000 on the configuration inputs. -/
def loaded (f : Bytes) : State := { State.reset with rsm := ⟨f, false⟩, co2fSel := true, co2fPpm := 997000#32 }

/-- The same inside a chunk, one byte of it seen. -/
def insideChunk (f : Bytes) (h : Byte) : State := { loaded f with cpos := .one, hold := h }

/-- The same inside a chunk, two or more bytes of it seen. -/
def deepInChunk (f : Bytes) : State := { loaded f with cpos := .more }

/-- A beat with no strobe, the test factor on the configuration inputs. -/
def quietBeat : Beat := ⟨false, false, false, 0#8, false, false, 0#4, 0#8, 0#32, true, 997000#32⟩

/-- The short frame of V-FSR-4: right checksum, device type 09. -/
def short : Bytes := hex 5 0xFF5501094E

/-- The events an instruction adds on the loaded state; none where it does not answer a next state. -/
def eventsOf (i : Instr) (f : Bytes) : Option (List Event) :=
  match exec i (loaded f) with
  | .next t => some t.out
  | .fault _ => none
  | .refused _ => none

/-- The reassembly state, the chunk position, the held byte and the events after one step with this beat. -/
def afterBeat (s : State) (b : Beat) : Option (ReassemblyState × ChunkPos × Byte × List Event) :=
  match step { s with inputs := [b] } with
  | .next t => some (t.rsm, t.cpos, t.hold, t.out)
  | .fault _ => none
  | .refused _ => none

/-- The reassembly state and the events of a host program from the reset state, with the test factor. -/
def ofProgram (ls : List ProgramLine) : Option (ReassemblyState × List Event) :=
  match runProgram rawDefault ls true 997000#32 emptyRsm with
  | .next p => some p
  | .fault _ => none
  | .refused _ => none

/-- The reading of V-PPD-1. -/
def rdAc36 : Reading := .ac
  { voltageMv := 230000, currentMa := 1500, powerMw := 345000, energyMwh := 12340000, priceC := 250, freqDhz := 500,
    pfMilli := 987, tempC := 25,
    dur := ⟨12, 34, 56, [0x30#8, 0x31#8, 0x32#8, 0x3A#8, 0x33#8, 0x34#8, 0x3A#8, 0x35#8, 0x36#8]⟩,
    blRaw := 30#8, blClass := .seconds 30#8, co2 := 12302980, feeMant := 308500, feeExp := -1 }

/-- The reading of V-PPD-2. -/
def rdDc36 : Reading := .dc
  { voltageMv := 120500, currentMa := 2000, energyMwh := 12340, priceC := 250, tempC := 31,
    dur := ⟨1, 2, 3, [0x30#8, 0x30#8, 0x31#8, 0x3A#8, 0x30#8, 0x32#8, 0x3A#8, 0x30#8, 0x33#8]⟩,
    blRaw := 60#8, blClass := .on, powerMant := 2410000, powerExp := -1, co2 := 12303, feeMant := 308500, feeExp := -7 }

/-- The reading of V-PPD-3. -/
def rdUsb36 : Reading := .usb
  { voltageMv := some 5100, currentMa := some 1500, powerMw := none, energyMwh := some 7650, priceC := none,
    freqDhz := none, pfMilli := none, dminusMv := some 600, dplusMv := some 2700, chargeMah := some 1500,
    tempC := some 28,
    dur := some ⟨0, 45, 7, [0x30#8, 0x30#8, 0x30#8, 0x3A#8, 0x34#8, 0x35#8, 0x3A#8, 0x30#8, 0x37#8]⟩,
    blRaw := some 0#8, blClass := some .off, extra := [], derivedPower := some ⟨76500, -1⟩, co2 := none, fee := none }

/-- An instance of the OPEN table `LAYOUT[USB]` with other fields than the default's: fewer named ones, a price, one
field of no name of R177, and every derived value; the multipliers of voltage and current are 10 and 1. -/
def otherUsb : UsbLayout :=
  { voltage := some ⟨4, 2, 10⟩, current := some ⟨6, 2, 1⟩, power := none, energy := some ⟨8, 4, 10⟩,
    price := some ⟨12, 3, 1⟩, freq := none, pf := none, dminus := none, dplus := none, charge := none, temp := none,
    durOff := none, blOff := some 15, extra := [⟨16, 1, 3⟩], derivesPower := true, derivesCo2 := true, feeDiv := 7 }

/-- The default instantiation but for that table. -/
def otherParams : Params := ⟨{ rawDefault with layoutUsb := otherUsb }, by decide⟩

/-- A valid report of that instantiation: voltage 5001, current 3, energy 1000, price 250, backlight 60, 7. -/
def otherFrame : Bytes := hex 36 0xFF55010313890003000003E80000FA3C070000000000000000000000000000000000008F

/-! ### WellFormed refuses an ill-formed term of each check -/

theorem test_wf_refuses_unknown_devices :
    (Instr.resetWh 0x00#8 0#8).wf rawDefault = false ∧ (Instr.resetAh 0x04#8 0#8).wf rawDefault = false ∧
    (Instr.resetDuration 0xFF#8 0#8).wf rawDefault = false ∧ (Instr.resetAll 0x04#8 0#8).wf rawDefault = false ∧
    (Instr.setBacklightTime 0x00#8 1#32 0#8).wf rawDefault = false ∧
    (Instr.setPrice 0x04#8 1#32 0#8).wf rawDefault = false ∧
    (Instr.setup 0x00#8 0#8).wf rawDefault = false ∧ (Instr.enter 0x04#8 0#8).wf rawDefault = false := by decide

theorem test_wf_refuses_values_outside_the_clamp_range :
    (Instr.setBacklightTime 0x01#8 61#32 0#8).wf rawDefault = false ∧
    (Instr.setPrice 0x01#8 0#32 0#8).wf rawDefault = false ∧
    (Instr.setPrice 0x01#8 1000000#32 0#8).wf rawDefault = false := by decide

theorem test_wf_refuses_device_3_in_the_ordinary_rows :
    (Instr.setPlus 0x03#8 0#8).wf rawDefault = false ∧ (Instr.setMinus 0x03#8 0#8).wf rawDefault = false := by decide

theorem test_wf_refuses_reports_of_another_length :
    (Instr.reportAc (List.replicate 30 0#8) 0#8).wf rawDefault = false ∧
    (Instr.reportDc (List.replicate 32 0#8) 0#8).wf rawDefault = false ∧
    (Instr.reportUsb [] 0#8).wf rawDefault = false := by decide

/-- U19: the default parameters are well formed; a capacity below 36, a report tag equal to CMD_TAG and a report too
short for its layout are not, nor is a USB field at offset 3 or over the checksum byte. -/
theorem test_paramsWf : paramsWf rawDefault = true ∧ paramsWf { rawDefault with bufCap := 35 } = false ∧
    paramsWf { rawDefault with reportTag := 0x11#8 } = false ∧ paramsWf { rawDefault with lenAc := 31 } = false ∧
    paramsWf { rawDefault with layoutUsb := { layoutUsbDefault with temp := some ⟨3, 2, 1⟩ } } = false ∧
    paramsWf { rawDefault with layoutUsb := { layoutUsbDefault with extra := [⟨34, 2, 1⟩] } } = false ∧
    paramsWf { rawDefault with layoutUsb := { layoutUsbDefault with extra := [⟨33, 2, 1⟩] } } = true := by
  decide

/-! ### Words written out from the spec's encodings decode to their instructions -/

/-- R77: strobe pattern 1000. -/
theorem test_decode_clear : decodeTableWord 8 0b1000 = some .clear := by decide
/-- R77: strobe pattern 0100. -/
theorem test_decode_flush : decodeTableWord 8 0b0100 = some .flush := by decide
/-- R77: strobe pattern 0010. -/
theorem test_decode_feed : decodeTableWord 8 0b0010 = some (.feed 0#8 false) ∧
    decode rawDefault [0x02#8, 0xA5#8, 0x01#8, 0#8, 0#8, 0#8, 0#8, 0#8, 0#8] = .ok (.feed 0xA5#8 true) := by decide
/-- R77: strobe pattern 0001; the request setPrice(2, 999999). -/
theorem test_decode_encode : decodeTableWord 8 0b0001 = some (.encode 0#4 0#8 0#32) ∧
    decode rawDefault [0x01#8, 0#8, 0#8, 0x05#8, 0x02#8, 0x00#8, 0x0F#8, 0x42#8, 0x3F#8] =
      .ok (.encode 5#4 0x02#8 999999#32) := by decide
/-- L1-A row 1, and so on. -/
theorem test_decode_resetWh : decodeTableWord 80 0xFF551101010000000057 = some (.resetWh 1#8 0x57#8) := by decide
theorem test_decode_resetAh : decodeTableWord 80 0xFF551101020000000050 = some (.resetAh 1#8 0x50#8) := by decide
theorem test_decode_resetDuration :
    decodeTableWord 80 0xFF551101030000000051 = some (.resetDuration 1#8 0x51#8) := by decide
theorem test_decode_resetAll : decodeTableWord 80 0xFF55110205000000005C = some (.resetAll 2#8 0x5C#8) := by decide
theorem test_decode_setBacklightTime :
    decodeTableWord 80 0xFF551103210000001E17 = some (.setBacklightTime 3#8 30#32 0x17#8) := by decide
theorem test_decode_setPrice :
    decodeTableWord 80 0xFF55110122000F423F80 = some (.setPrice 1#8 999999#32 0x80#8) := by decide
theorem test_decode_setup : decodeTableWord 80 0xFF551102310000000000 = some (.setup 2#8 0x00#8) := by decide
theorem test_decode_enter : decodeTableWord 80 0xFF551103320000000002 = some (.enter 3#8 0x02#8) := by decide
theorem test_decode_setPlus : decodeTableWord 80 0xFF551102330000000002 = some (.setPlus 2#8 0x02#8) := by decide
theorem test_decode_setPlusUsb : decodeTableWord 80 0xFF551103110000000061 = some (.setPlusUsb 0x61#8) := by decide
theorem test_decode_setMinus : decodeTableWord 80 0xFF551101340000000002 = some (.setMinus 1#8 0x02#8) := by decide
theorem test_decode_setMinusUsb : decodeTableWord 80 0xFF551103120000000062 = some (.setMinusUsb 0x62#8) := by decide
/-- The body is bytes 4 to 34 of the frame (R73). -/
theorem test_decode_reportAc :
    decodeTableWord 288 0xFF5501010008FC0005DC000D7A000004D20000FA01F403DB0019000C22381E00000000EA =
      some (.reportAc (hex 31 0x0008FC0005DC000D7A000004D20000FA01F403DB0019000C22381E00000000) 0xEA#8) := by decide
theorem test_decode_reportDc :
    decodeTableWord 288 0xFF5501020004B50007D0000000000004D20000FA00000000001F000102033C0000000080 =
      some (.reportDc (hex 31 0x0004B50007D0000000000004D20000FA00000000001F000102033C00000000) 0x80#8) := by decide
theorem test_decode_reportUsb :
    decodeTableWord 288 0xFF5501030000330005DC000000000002FD003C010E000005DC001C00002D0700000000D7 =
      some (.reportUsb (hex 31 0x0000330005DC000000000002FD003C010E000005DC001C00002D0700000000) 0xD7#8) := by decide

/-- R74, R77, R82 to R84: what is no instruction is refused by name. -/
theorem test_decode_refuses_by_name :
    decode rawDefault [] = .error .noFormat ∧
    decode rawDefault (leBytes 9 0x18) = .error .strayPortBit ∧
    decode rawDefault (leBytes 9 0x00) = .error .idleBeat ∧
    decode rawDefault (leBytes 9 0x0C) = .error .severalStrobes ∧
    decode rawDefault (hex 10 0xFF550201010000000057) = .error .unknownTag ∧
    decode rawDefault (hex 11 0xFF55110101000000005700) = .error .wrongLength ∧
    decode rawDefault (hex 10 0xFF551101040000000057) = .error .unknownOpcode ∧
    decode rawDefault (hex 10 0xFF551104010000000057) = .error .unknownDevice ∧
    decode rawDefault (hex 10 0xFF551101110000000057) = .error .excludedDevice ∧
    decode rawDefault (hex 10 0xFF551103330000000057) = .error .excludedDevice ∧
    decode rawDefault (hex 10 0xFF551101210000004057) = .error .valueOutsideForm ∧
    decode rawDefault (hex 10 0xFF551101010000000157) = .error .valueOutsideForm := by decide

/-! ### One step of each instruction -/

/-- V-FSR-7: CLEAR drops the bytes without an event. -/
theorem test_clear : afterBeat (loaded short) { quietBeat with clear := true } =
    some (⟨[], false⟩, .between, 0#8, []) := by decide
/-- R262: CLEAR inside a chunk is refused. -/
theorem test_clear_inside_chunk : exec .clear (deepInChunk short) = .refused .strobeInsideChunk := rfl
/-- V-PPD-9, V-FSR-4. -/
theorem test_flush : afterBeat (loaded short) { quietBeat with flush := true } =
    some (⟨[], false⟩, .between, 0#8, [.frame short false, .failure .unknownDeviceType]) := by decide
/-- V-FSR-7: FLUSH of an empty buffer. -/
theorem test_flush_empty : afterBeat (loaded []) { quietBeat with flush := true } =
    some (⟨[], false⟩, .between, 0#8, []) := by decide
/-- V-FSR-4, the second byte of the chunk FF55: the buffered frame leaves, the chunk replaces it. -/
theorem test_feed_header : afterBeat (insideChunk short 0xFF#8)
      { quietBeat with rxValid := true, rxData := 0x55#8, rxLast := true } =
    some (⟨[0xFF#8, 0x55#8], false⟩, .between, 0xFF#8, [.frame short false, .failure .unknownDeviceType]) := by decide
/-- V-FSR-5: the first byte of a one-byte chunk is appended. -/
theorem test_feed_one_byte_chunk : afterBeat (loaded short)
      { quietBeat with rxValid := true, rxData := 0xFF#8, rxLast := true } =
    some (⟨short ++ [0xFF#8], false⟩, .between, 0#8, []) := by decide
/-- V-CEN-22: 1000000 clamps to 999999. -/
theorem test_encode : eventsOf (.encode 5#4 1#8 1000000#32) [] =
    some [.encoded (hex 10 0xFF55110122000F423F80)] := by decide
/-- R193: an unknown selector, and P3 line 10: an unknown device. -/
theorem test_encode_invalid : eventsOf (.encode 10#4 1#8 0#32) [] = some [.failure .invalidOperation] ∧
    eventsOf (.encode 3#4 4#8 0#32) [] = some [.failure .invalidOperation] := by decide
/-- The table of V-CEN, and so on: device types other than the source's. -/
theorem test_resetWh : eventsOf (.resetWh 2#8 0#8) [] = some [.encoded (hex 10 0xFF551102010000000050)] := by decide
theorem test_resetAh : eventsOf (.resetAh 3#8 0#8) [] = some [.encoded (hex 10 0xFF551103020000000052)] := by decide
theorem test_resetDuration :
    eventsOf (.resetDuration 2#8 0#8) [] = some [.encoded (hex 10 0xFF551102030000000052)] := by decide
theorem test_resetAll : eventsOf (.resetAll 3#8 0#8) [] = some [.encoded (hex 10 0xFF55110305000000005D)] := by decide
/-- V-CEN-4: the most negative argument clamps to 0. -/
theorem test_setBacklightTime : eventsOf (.setBacklightTime 1#8 0x80000000#32 0#8) [] =
    some [.encoded (hex 10 0xFF551101210000000077)] := by decide
/-- V-CEN-8: 61 clamps to 60. -/
theorem test_setBacklightTime_upper : eventsOf (.setBacklightTime 1#8 61#32 0#8) [] =
    some [.encoded (hex 10 0xFF551101210000003C2B)] := by decide
/-- V-CEN-13: -1 clamps to 1. -/
theorem test_setPrice : eventsOf (.setPrice 1#8 0xFFFFFFFF#32 0#8) [] =
    some [.encoded (hex 10 0xFF551101220000000171)] := by decide
/-- V-CEN-19: byte 6. -/
theorem test_setPrice_byte : eventsOf (.setPrice 1#8 65536#32 0#8) [] =
    some [.encoded (hex 10 0xFF551101220001000071)] := by decide
theorem test_setup : eventsOf (.setup 3#8 0#8) [] = some [.encoded (hex 10 0xFF551103310000000001)] := by decide
theorem test_enter : eventsOf (.enter 2#8 0#8) [] = some [.encoded (hex 10 0xFF551102320000000001)] := by decide
theorem test_setPlus : eventsOf (.setPlus 2#8 0#8) [] = some [.encoded (hex 10 0xFF551102330000000002)] ∧
    eventsOf (.setPlus 3#8 0#8) [] = some [.encoded (hex 10 0xFF551103110000000061)] := by decide
theorem test_setPlusUsb : eventsOf (.setPlusUsb 0#8) [] = some [.encoded (hex 10 0xFF551103110000000061)] := by decide
theorem test_setMinus : eventsOf (.setMinus 2#8 0#8) [] = some [.encoded (hex 10 0xFF551102340000000003)] ∧
    eventsOf (.setMinus 3#8 0#8) [] = some [.encoded (hex 10 0xFF551103120000000062)] := by decide
theorem test_setMinusUsb : eventsOf (.setMinusUsb 0#8) [] = some [.encoded (hex 10 0xFF551103120000000062)] := by decide
/-- V-PPD-1. -/
theorem test_reportAc :
    eventsOf (.reportAc (hex 31 0x0008FC0005DC000D7A000004D20000FA01F403DB0019000C22381E00000000) 0xEA#8) [] =
      some [.reading rdAc36] := by decide
/-- V-PPD-12. -/
theorem test_reportAc_checksum :
    eventsOf (.reportAc (hex 31 0x0008FC0005DC000D7A000004D20000FA01F403DB0019000C22381E00000000) 0xEB#8) [] =
      some [.failure .checksumMismatch] := by decide
/-- V-PPD-2. -/
theorem test_reportDc :
    eventsOf (.reportDc (hex 31 0x0004B50007D0000000000004D20000FA00000000001F000102033C00000000) 0x80#8) [] =
      some [.reading rdDc36] := by decide
/-- V-PPD-3. -/
theorem test_reportUsb :
    eventsOf (.reportUsb (hex 31 0x0000330005DC000000000002FD003C010E000005DC001C00002D0700000000) 0xD7#8) [] =
      some [.reading rdUsb36] := by decide

/-- R159, R162, R172, C9: a table of other fields: power 150.03, fee 10000 × 2.50 / 7. -/
theorem test_decUsb_by_another_table : decUsb otherParams.raw otherFrame 997000 = .ok (.usb
    { voltageMv := some 50010, currentMa := some 3, powerMw := none, energyMwh := some 10000, priceC := some 250,
      freqDhz := none, pfMilli := none, dminusMv := none, dplusMv := none, chargeMah := none, tempC := none,
      dur := none, blRaw := some 60#8, blClass := some .on, extra := [21], derivedPower := some ⟨150030, -3⟩,
      co2 := some 9970, fee := some ⟨2500000, 700⟩ }) := by decide

/-! ### The step as a whole -/

/-- V-PORT-4, row 1. -/
theorem test_beat_clear_flush : afterBeat (loaded short) { quietBeat with clear := true, flush := true } =
    some (⟨[], false⟩, .between, 0#8, []) := by decide
/-- V-PORT-4, row 2. -/
theorem test_beat_flush_feed : afterBeat (loaded short)
      { quietBeat with flush := true, rxValid := true, rxData := 0xFF#8 } =
    some (⟨[], false⟩, .one, 0xFF#8, [.frame short false, .failure .unknownDeviceType]) := by decide
/-- V-PORT-4, row 3. -/
theorem test_beat_clear_feed : afterBeat (loaded short)
      { quietBeat with clear := true, rxValid := true, rxData := 0x07#8, rxLast := true } =
    some (⟨[0x07#8], false⟩, .between, 0#8, []) := by decide
/-- V-PORT-4, row 4. -/
theorem test_beat_flush_encode : afterBeat (loaded short)
      { quietBeat with flush := true, encReq := true, encOp := 7#4, encDev := 1#8 } =
    some (⟨[], false⟩, .between, 0#8, [.frame short false, .failure .unknownDeviceType,
      .encoded (hex 10 0xFF551101320000000000)]) := by decide
/-- V-PORT-4, row 5. -/
theorem test_beat_flush_inside_chunk :
    afterBeat (insideChunk short 0xFF#8) { quietBeat with flush := true } = none := by decide
/-- R31, R32: the ports of a beat that emits a frame and encodes a command (bits 79 to 0 of enc_frame). -/
theorem test_ports : outputPorts [.frame short false, .failure .unknownDeviceType,
      .encoded (hex 10 0xFF551101320000000000)] =
    ⟨some ⟨5, short, false⟩, none, true, some 0xFF551101320000000000#80, false, some 4#3⟩ := by decide
/-- R32, R220: err_code is 5 beside enc_err; beside err_valid too it is one of the two codes. -/
theorem test_ports_err_code :
    outputPorts [.failure .invalidOperation] = ⟨none, none, false, none, true, some 5#3⟩ ∧
    ((outputPorts [.frame short false, .failure .unknownDeviceType, .failure .invalidOperation]).errCode = some 4#3 ∨
      (outputPorts [.frame short false, .failure .unknownDeviceType, .failure .invalidOperation]).errCode =
        some 5#3) := by
  refine ⟨rfl, ?_⟩
  cases h : Config.errCodeShowsSecond 4#3 5#3 <;> simp [outputPorts, drivePort, quietPorts, showCode, errCode, h]
/-- R31: frm_len is nine bits wide for a capacity of 256. -/
theorem test_frmLenWidth : frmLenWidth 256 = 9 ∧ frmLenWidth 255 = 8 := by decide
/-- Entry 17: a command kind runs as the next step after reset. -/
theorem test_fetch_command :
    step (State.reset.withFetchWord 80 0xFF551101320000000000) = exec (.enter 1#8 0#8) State.reset := rfl
/-- Entry 17: a report frame is buffered and delivered by the next step. -/
theorem test_fetch_report : step (State.reset.withFetchWord 288
      0xFF5501010008FC0005DC000D7A000004D20000FA01F403DB0019000C22381E00000000EB) =
    .next { State.reset with out := [.frame (hex 36
      0xFF5501010008FC0005DC000D7A000004D20000FA01F403DB0019000C22381E00000000EB) false,
      .failure .checksumMismatch] } := rfl

/-! ### Host programs -/

/-- V-FSR-3. -/
theorem test_third_chunk_emits_the_first_two :
    ofProgram [.op (.feed (hex 3 0xFF5501)), .op (.feed [2#8, 3#8]), .op (.feed (hex 3 0xFF55AA))] =
      some (⟨hex 3 0xFF55AA, false⟩, [.frame (hex 5 0xFF55010203) false, .failure .checksumMismatch]) := by decide
/-- V-FSR-5: a header split over two chunks is missed. -/
theorem test_split_header_is_missed :
    ofProgram [.op (.feed short), .op (.feed [0xFF#8]), .op (.feed (hex 4 0x5501094E)), .op .flush] =
      some (⟨[], false⟩, [.frame (hex 10 0xFF5501094EFF5501094E) false, .failure .checksumMismatch]) := by decide
/-- V-FSR-6. -/
theorem test_headerless_frames :
    ofProgram [.op (.feed (hex 5 0x0102030405)), .op (.feed (hex 3 0xFF5501)), .op .flush] =
      some (⟨[], false⟩, [.frame (hex 5 0x0102030405) false, .failure .malformedFrame,
        .frame (hex 3 0xFF5501) false, .failure .malformedFrame]) := by decide
/-- V-FSR-13, with the least capacity the spec allows (36): 34 bytes fit, 2 of 3 more fit, one is dropped. -/
theorem test_overflow :
    runProgram { rawDefault with bufCap := 36 } [.op (.feed (List.replicate 34 0xAA#8)),
      .op (.feed [1#8, 2#8, 3#8]), .op .flush] true 0#32 emptyRsm =
    .next (⟨[], false⟩, [.frame (List.replicate 34 0xAA#8 ++ [1#8, 2#8]) true, .failure .malformedFrame]) := by rfl
/-- P1, lines 6 to 9: the factor is the one of the emission step (co2 = 6170 and 6170000). -/
theorem test_factor_of_the_emission_step :
    (ofProgram [.op (.feed dc36), .co2fPpm 500000#32, .op (.feed ac36), .op .flush]).map (fun p => p.2.map (fun e =>
      match e with
      | .reading (.ac r) => r.co2
      | .reading (.dc r) => r.co2
      | _ => 0)) = some [0, 6170, 0, 6170000] := by decide

/-! ### Checks of the operations -/

/-- V-CKV-1 to 13. -/
theorem test_ckFitted : ckFitted [] = 0x44#8 ∧ ckFitted [0xFF#8] = 0x44#8 ∧ ckFitted (hex 2 0xFF55) = 0x44#8 ∧
    ckFitted (hex 2 0x0000) = 0x44#8 ∧ ckFitted (hex 4 0xFF550109) = 0x4E#8 ∧ ckFitted (hex 4 0xFF55FFFF) = 0xBA#8 ∧
    ckFitted (hex 6 0xFF5580800000) = 0x44#8 ∧ ckFitted ac36.dropLast = 0xEA#8 ∧ ckFitted dc36.dropLast = 0x80#8 ∧
    ckFitted usb36.dropLast = 0xD7#8 := by decide
/-- V-CKV-14 to 19, 22. -/
theorem test_validate :
    validate rawDefault (hex 10 0xFF551101010000000057) .command = none ∧
    validate rawDefault (hex 10 0xFF551101010000000057) .report = some .unexpectedMessageType ∧
    validate rawDefault (hex 10 0xFF551101010000000056) .command = some .checksumMismatch ∧
    validate rawDefault (hex 10 0xFF551101010000000056) .report = some .checksumMismatch ∧
    validate rawDefault (hex 10 0xFF550101010000000057) .report = some .checksumMismatch ∧
    validate rawDefault (hex 10 0xFF550101010000000047) .report = none ∧
    validate rawDefault (hex 4 0x00000145) .report = none := by decide
/-- V-PPD-7 (every field at its maximum, the long duration string), 22 and 10. -/
theorem test_decodeFrame :
    (match decodeFrame rawDefault (hex 36 0xFF550101FFFFFFFFFFFFFFFFFFFFFFFFFFFFFFFFFFFFFFFFFFFFFFFFFFFFFF00000000A3)
        false 997000 with
      | .reading (.ac r) => (r.voltageMv, r.energyMwh, r.co2, r.feeMant, r.dur.str.length)
      | _ => (0, 0, 0, 0, 0)) = (1677721500, 42949672950000, 42820823931150, 72057589726183425, 13) ∧
    decodeFrame rawDefault ac36 true 997000 = .failure .malformedFrame ∧
    decodeFrame rawDefault (hex 36 0xFF5501000008FC0000000000000000000000000000000000000000000000000000000041) false 0 =
      .failure .unknownDeviceType := by decide
/-- V-PRM-2 to 34. -/
theorem test_arithmetic : u8 [0xFF#8] 0 = 255 ∧ u16be [0#8, 1#8, 2#8] 1 = 258 ∧ u24be [1#8, 0#8, 0#8] 0 = 65536 ∧
    u32be [0x80#8, 0#8, 0#8, 0#8] 0 = 2147483648 ∧ put32be 999999#32 = [0#8, 0x0F#8, 0x42#8, 0x3F#8] ∧
    clamp (-1) 0 60 = 0 ∧ clamp 61 0 60 = 60 ∧ clamp 59 0 60 = 59 ∧ roundHalfUp 499999 1000000 = 0 ∧
    roundHalfUp 500000 1000000 = 1 ∧ roundHalfUp 2500000 1000000 = 3 := by decide
/-- V-PRM-35, 38, 45, 46, 47 to 53. -/
theorem test_renderings : dec 0 = [0x30#8] ∧ decPad 255 2 = [0x32#8, 0x35#8, 0x35#8] ∧
    fmtDur 0 75 99 = [0x30#8, 0x30#8, 0x30#8, 0x3A#8, 0x37#8, 0x35#8, 0x3A#8, 0x39#8, 0x39#8] ∧
    (fmtDur 65535 255 255).length = 13 ∧ classifyBl 60#8 = .on ∧ classifyBl 61#8 = .seconds 61#8 ∧
    blLabel (.seconds 30#8) = some [0x33#8, 0x30#8, 0x20#8, 0x73#8, 0x65#8, 0x63#8] := by decide

/-! ### Witnesses: the hypotheses of each statement can be met, each clause at a boundary -/

theorem witness_ClearDropsTheBufferSilently : (loaded short).cpos = .between ∧ (loaded short).rsm.buf ≠ [] := by decide

theorem witness_FlushEmitsTheBufferThenEmptiesIt :
    (loaded short).cpos = .between ∧ (loaded short).rsm.buf ≠ [] ∧ (loaded []).cpos = .between ∧
    (loaded []).rsm.buf = [] := by decide

/-- The five clauses: between with the chunk's only byte and with a first byte, the second byte completing the header
and not completing it (each byte of it in turn wrong), a later byte. -/
theorem witness_FeedBeatFollowsThePerBeatRule :
    (loaded short).cpos = .between ∧
    ((insideChunk short 0xFF#8).cpos = .one ∧ (insideChunk short 0xFF#8).hold = 0xFF#8) ∧
    ((insideChunk short 0xFE#8).cpos = .one ∧ ¬ ((insideChunk short 0xFE#8).hold = 0xFF#8 ∧ 0x55#8 = 0x55#8)) ∧
    ¬ ((insideChunk short 0xFF#8).hold = 0xFF#8 ∧ 0x54#8 = 0x55#8) ∧ (deepInChunk short).cpos = .more := by decide

theorem witness_FeedKeepsTheBytesAlreadyBuffered :
    (∃ t, exec (.feed 0x54#8 true) (insideChunk short 0xFF#8) = .next t) ∧
    ¬ ((insideChunk short 0xFF#8).cpos = .one ∧ (insideChunk short 0xFF#8).hold = 0xFF#8 ∧ 0x54#8 = 0x55#8) :=
  ⟨⟨_, rfl⟩, by decide⟩

theorem witness_FeedKeepsTheHeaderAtTheFront :
    hdrLead (insideChunk short 0xFF#8).rsm.buf = true ∧
    ∃ t, exec (.feed 0x55#8 true) (insideChunk short 0xFF#8) = .next t :=
  ⟨by decide, _, rfl⟩

theorem witness_OnlyFeedFlushClearChangeTheBuffer :
    Instr.setMinusUsb 0#8 ≠ .clear ∧ Instr.setMinusUsb 0#8 ≠ .flush ∧ ∀ b l, Instr.setMinusUsb 0#8 ≠ .feed b l :=
  ⟨by decide, by decide, fun _ _ h => by cases h⟩

theorem witness_StepRunsTheDecodedPortInstruction :
    ({ loaded short with inputs := [{ quietBeat with encReq := true, encOp := 15#4 }] } : State).inputs =
      [{ quietBeat with encReq := true, encOp := 15#4 }] ∧
    decode (loaded short).par.raw (portWordOfBeat { quietBeat with encReq := true, encOp := 15#4 }) =
      .ok (.encode 15#4 0#8 0#32) := by decide

theorem witness_StepRunsTheBufferedReport :
    instrsOfBeat { quietBeat with flush := true } = [.flush] ∧ (loaded dc36).cpos = .between ∧
    (loaded dc36).rsm = ⟨encode (loaded dc36).par.raw (reportInstr .dc
      (hex 31 0x0004B50007D0000000000004D20000FA00000000001F000102033C00000000) 0x80#8), false⟩ := by decide

theorem witness_StepRunsThePresentedCommand :
    (Instr.setPrice 3#8 999999#32 0#8).wf (loaded short).par.raw = true ∧
    requestOf (.setPrice 3#8 999999#32 0#8) ≠ none := by decide

theorem witness_IdleBeatChangesNothing :
    (loaded short).inputs = [] ∧
    ({ loaded short with inputs := [quietBeat] } : State).inputs = quietBeat :: [] ∧ quietBeat.clear = false ∧
    quietBeat.flush = false ∧ quietBeat.rxValid = false ∧ quietBeat.encReq = false := by decide

theorem witness_StrobesOfOneBeatTakeEffectInOrder :
    ({ loaded short with inputs := [quietBeat] } : State).inputs = quietBeat :: [] ∧ (loaded short).cpos = .between ∧
    (insideChunk short 0#8).cpos ≠ .between ∧ ({ quietBeat with clear := true } : Beat).clear = true ∧
    ({ quietBeat with flush := true } : Beat).flush = true := by decide

/-- Steps that answer a next state: for the statements over all of them, the invariant among them. -/
theorem witness_steps_that_answer_a_next_state :
    (∃ t, step { loaded short with inputs := [{ quietBeat with flush := true }] } = .next t) ∧
    (∃ t, step { deepInChunk short with inputs := [{ quietBeat with rxValid := true }] } = .next t) ∧
    (deepInChunk short).rsm.wf (deepInChunk short).par.raw.bufCap = true ∧
    ((deepInChunk short).cpos = .more → 2 ≤ (deepInChunk short).rsm.buf.length) :=
  ⟨⟨_, rfl⟩, ⟨_, rfl⟩, by decide, by decide⟩

theorem witness_FeedFollowsTheChunkRule :
    [0xFF#8] ≠ [] ∧ ¬ (([0xFF#8] : Bytes)[0]? = some 0xFF#8 ∧ ([0xFF#8] : Bytes)[1]? = some 0x55#8) ∧
    (hex 2 0xFF55 ≠ [] ∧ (hex 2 0xFF55)[0]? = some 0xFF#8 ∧ (hex 2 0xFF55)[1]? = some 0x55#8) := by decide

/-- The same request beside FLUSH and beside a byte of a chunk, on two states. -/
theorem witness_EncodeIsIndependentOfTheReceiveSide :
    (∃ t, step { loaded short with inputs := [{ quietBeat with encReq := true, flush := true }] } = .next t) ∧
    (∃ t, step { deepInChunk [] with inputs := [{ quietBeat with encReq := true, rxValid := true }] } = .next t) ∧
    (loaded short).par = (deepInChunk []).par :=
  ⟨⟨_, rfl⟩, ⟨_, rfl⟩, rfl⟩

theorem witness_UnknownDevicesAreReportedAsSuch :
    precheck defaultParams.raw short = none ∧ short[3]? = some 0x09#8 ∧ dispatch 0x09#8 = none := by decide

theorem witness_ClampingTwiceIsClampingOnce :
    (0#32).toInt < 1 ∧ 999999 < (1000000#32).toInt ∧ (0xFFFFFFFF#32).toInt < 0 ∧ 60 < (61#32).toInt := by decide

theorem witness_DispatchIsTheRom :
    0x00#8 ≠ 0x01#8 ∧ 0x00#8 ≠ 0x02#8 ∧ 0x00#8 ≠ 0x03#8 ∧ 0x04#8 ≠ 0x03#8 := by decide

theorem witness_EmittedLengthFitsItsPort :
    (loaded short).rsm.wf (loaded short).par.raw.bufCap = true ∧
    ∃ t, step { loaded short with inputs := [{ quietBeat with flush := true }] } = .next t ∧
      (outputPorts t.out).frm = some ⟨5, short, false⟩ :=
  ⟨by decide, _, rfl, by decide⟩

theorem witness_BeatsRefineTransactions :
    noEmptyChunk [.co2fPpm 500000#32, .op (.feed [0xFF#8, 0x55#8]), .op .flush, .op (.encode 7#4 1#8 0#32)] = true ∧
    State.reset.cpos = .between ∧
    ({ State.reset with inputs := beatsOfProgram rawDefault [.op (.feed [0xFF#8, 0x55#8])] false 0#32 } : State).inputs =
      beatsOfProgram State.reset.par.raw [.op (.feed [0xFF#8, 0x55#8])] State.reset.co2fSel State.reset.co2fPpm := by
  decide

theorem witness_FragmentationDoesNotMatter :
    emptyRsm.buf = [] ∧ hdrLead (hex 2 0xFF55) = true ∧
    (∀ d ∈ [[0x01#8], hex 2 0x094E], d ≠ [] ∧ hdrLead d = false) ∧
    (hex 2 0xFF55 ++ [[0x01#8], hex 2 0x094E].flatten).length ≤ defaultParams.raw.bufCap ∧
    hdrLead (hex 3 0xFF5501) = true := by decide

theorem witness_OverflowDropsWhatDoesNotFit :
    emptyRsm.buf.length ≤ defaultParams.raw.bufCap ∧
    (List.replicate 256 0xAA#8).length ≤ defaultParams.raw.bufCap :=
  ⟨by decide, by rw [List.length_replicate]; decide⟩

/-- The devices of every statement of the encoder, and the values next to them. -/
theorem witness_devices : isDevice 0x01#8 ∧ isDevice 0x02#8 ∧ isDevice 0x03#8 ∧ ¬ isDevice 0x00#8 ∧
    ¬ isDevice 0x04#8 := by decide

theorem witness_clamped_commands :
    (Instr.encode 4#4 1#8 61#32 = .setBacklightTime 1#8 61#32 0#8 ∨ Instr.encode 4#4 1#8 61#32 = .encode 4#4 1#8 61#32) ∧
    (Instr.setPrice 3#8 0#32 0#8 = .setPrice 3#8 0#32 0#8 ∨ Instr.setPrice 3#8 0#32 0#8 = .encode 5#4 3#8 0#32) := by
  decide

theorem witness_EncodeProducesTheAssembledFrame :
    encOpOf 0#4 = some .resetWh ∧ encOpOf 9#4 = some .setMinus ∧ isDevice 0x01#8 ∧ isDevice 0x03#8 := by decide

theorem witness_EncodeRejectsUnknownDevicesAndSelectors :
    (¬ isDevice 0x00#8 ∨ 9 < (0#4).toNat) ∧ (¬ isDevice 0x01#8 ∨ 9 < (10#4).toNat) := by decide

theorem witness_EncodedFramesValidateAsCommands :
    ∃ t f, exec (.encode 9#4 0x03#8 0#32) (loaded short) = .next t ∧ t.out = (loaded short).out ++ [.encoded f] :=
  ⟨_, _, rfl, rfl⟩

theorem witness_CommandsFedBackAreUnexpected : ∃ f, encodeEvent defaultParams.raw 0#4 0x01#8 0#32 = .encoded f :=
  ⟨_, rfl⟩

/-- One frame for each clause: V-PPD-18 (four bytes), V-PPD-21 (five), V-PPD-12, V-PPD-14, V-PPD-9 (five), V-PPD-16
(one byte short), V-PPD-1. -/
theorem witness_DecodeReportsTheFirstFailingCheck :
    (hex 4 0xFF550146).length < 5 ∧
    (5 ≤ (hex 5 0x0102030405).length ∧ (hex 5 0x0102030405)[0]? ≠ some 0xFF#8) ∧
    ((ac36.dropLast ++ [0xEB#8]).getLast? ≠ some (ck .fitted (ac36.dropLast ++ [0xEB#8]).dropLast)) ∧
    ((hex 10 0xFF551101010000000057).getLast? = some (ck .fitted (hex 10 0xFF551101010000000057).dropLast) ∧
      (hex 10 0xFF551101010000000057)[2]? ≠ some 0x01#8) ∧
    (5 ≤ short.length ∧ short[0]? = some 0xFF#8 ∧ short[1]? = some 0x55#8 ∧
      short.getLast? = some (ck .fitted short.dropLast) ∧ short[2]? = some 0x01#8 ∧ short[3]? = some 0x09#8) ∧
    ((hex 35 0xFF5501010008FC00000000000000000000000000000000000000000000000000000042).getLast? =
        some (ck .fitted (hex 35 0xFF5501010008FC00000000000000000000000000000000000000000000000000000042).dropLast) ∧
      (hex 35 0xFF5501010008FC00000000000000000000000000000000000000000000000000000042)[3]? = some (deviceByte .ac) ∧
      (hex 35 0xFF5501010008FC00000000000000000000000000000000000000000000000000000042).length ≠
        reportLen rawDefault .ac) ∧
    (ac36.getLast? = some (ck .fitted ac36.dropLast) ∧ ac36[2]? = some 0x01#8 ∧ ac36[3]? = some (deviceByte .ac) ∧
      ac36.length = reportLen rawDefault .ac) := by decide

/-- Three bytes, the least: the checksum wrong; right with another tag; right with the tag 44. -/
theorem witness_ValidateTestsChecksumThenTag :
    3 ≤ (hex 3 0xFF5500).length ∧ (hex 3 0xFF5500).getLast? ≠ some (ck .fitted (hex 3 0xFF5500).dropLast) ∧
    ((hex 3 0xFF5544).getLast? = some (ck .fitted (hex 3 0xFF5544).dropLast) ∧
      (hex 3 0xFF5544)[2]? ≠ some rawDefault.reportTag) ∧
    (hex 3 0xFF5544)[2]? = some ({ rawDefault with reportTag := 0x44#8 } : RawParams).reportTag := by decide

/-- For the statement over every table: one that has, and derives, what the default does not. -/
theorem witness_UsbReportDecodesByItsTable :
    (reportBytes otherParams.raw .usb (otherFrame.drop 4).dropLast 0x8F#8).length = otherParams.raw.lenUsb ∧
    0x8F#8 = ck otherParams.raw.ck (reportBytes otherParams.raw .usb (otherFrame.drop 4).dropLast 0x8F#8).dropLast ∧
    otherUsb.derivesPower = true ∧ otherUsb.derivesCo2 = true ∧ otherUsb.feeDiv ≠ 0 ∧
    layoutUsbDefault.feeDiv = 0 ∧ layoutUsbDefault.derivesCo2 = false := by decide

/-- One step for each clause: a frame that fails, a request that fails, and both in one beat. -/
theorem witness_ErrCodeShowsTheFailureOfTheStep :
    (∃ t, step { loaded short with inputs := [{ quietBeat with flush := true }] } = .next t ∧
      .failure .unknownDeviceType ∈ t.out) ∧
    (∃ t, step { loaded short with inputs := [{ quietBeat with encReq := true, encOp := 10#4 }] } = .next t ∧
      .failure .invalidOperation ∈ t.out) ∧
    ∃ t, step { loaded short with inputs := [{ quietBeat with flush := true, encReq := true, encOp := 10#4 }] } =
      .next t ∧ .failure .unknownDeviceType ∈ t.out ∧ .failure .invalidOperation ∈ t.out :=
  ⟨⟨_, rfl, by decide⟩, ⟨_, rfl, by decide⟩, _, rfl, by decide, by decide⟩

theorem witness_report_statements :
    ((reportBytes rawDefault .ac (ac36.drop 4).dropLast 0xEA#8).length = rawDefault.lenAc ∧
      0xEA#8 = ck rawDefault.ck (reportBytes rawDefault .ac (ac36.drop 4).dropLast 0xEA#8).dropLast) ∧
    ((reportBytes rawDefault .dc (dc36.drop 4).dropLast 0x80#8).length = rawDefault.lenDc ∧
      0x80#8 = ck rawDefault.ck (reportBytes rawDefault .dc (dc36.drop 4).dropLast 0x80#8).dropLast) ∧
    (rawDefault.layoutUsb = layoutUsbDefault ∧
      (reportBytes rawDefault .usb (usb36.drop 4).dropLast 0xD7#8).length = rawDefault.lenUsb ∧
      0xD7#8 = ck rawDefault.ck (reportBytes rawDefault .usb (usb36.drop 4).dropLast 0xD7#8).dropLast) := by decide

/-- A wrong checksum; a right one and one byte fewer, one byte more (V-PPD-16, V-PPD-17). -/
theorem witness_DamagedReportsFail :
    0xEB#8 ≠ ck rawDefault.ck (reportBytes rawDefault .ac (ac36.drop 4).dropLast 0xEB#8).dropLast ∧
    (0x42#8 = ck rawDefault.ck (reportBytes rawDefault .ac (hex 30 0x0008FC000000000000000000000000000000000000000000000000000000) 0x42#8).dropLast ∧
      (reportBytes rawDefault .ac (hex 30 0x0008FC000000000000000000000000000000000000000000000000000000) 0x42#8).length ≠
        reportLen rawDefault .ac) ∧
    (0x42#8 = ck rawDefault.ck (reportBytes rawDefault .ac (hex 32 0x0008FC0000000000000000000000000000000000000000000000000000000000) 0x42#8).dropLast ∧
      (reportBytes rawDefault .ac (hex 32 0x0008FC0000000000000000000000000000000000000000000000000000000000) 0x42#8).length ≠
        reportLen rawDefault .ac) := by decide

/-- V-PPD-42 (bytes 31 and 34), V-PPD-43 (bytes 10 to 12), and the USB example with byte 10 set. -/
theorem witness_UncoveredBytesDoNotMatter :
    (precheck rawDefault ac36 = none ∧
      precheck rawDefault (hex 36 0xFF5501010008FC0005DC000D7A000004D20000FA01F403DB0019000C22381E12000034B0) = none ∧
      ac36[3]? = some 0x01#8 ∧ ∀ i, i < 31 → ac36[i]? =
        (hex 36 0xFF5501010008FC0005DC000D7A000004D20000FA01F403DB0019000C22381E12000034B0)[i]?) ∧
    (precheck rawDefault dc36 = none ∧
      precheck rawDefault (hex 36 0xFF5501020004B50007D0FFFFFF000004D20000FA00000000001F000102033C0000000085) = none ∧
      dc36[3]? = some 0x02#8 ∧ ∀ i, i < 31 → (i < 10 ∨ 13 ≤ i ∧ i < 20 ∨ 24 ≤ i ∧ i < 31) → dc36[i]? =
        (hex 36 0xFF5501020004B50007D0FFFFFF000004D20000FA00000000001F000102033C0000000085)[i]?) ∧
    (precheck rawDefault usb36 = none ∧
      precheck rawDefault (hex 36 0xFF5501030000330005DC010000000002FD003C010E000005DC001C00002D0700000000D0) = none ∧
      usb36[3]? = some 0x03#8 ∧ ∀ i, i < 32 → (i < 10 ∨ 13 ≤ i) → usb36[i]? =
        (hex 36 0xFF5501030000330005DC010000000002FD003C010E000005DC001C00002D0700000000D0)[i]?) := by decide

/-- V-PPD-38, 39 (equal raw inputs) and V-PPD-40, 41 (equal scaled inputs). -/
theorem witness_FeeAsymmetryIsExact :
    (∃ a d, decAc rawDefault ac36 0 = .ok (.ac a) ∧ decDc rawDefault dc36 0 = .ok (.dc d) ∧
      u32be ac36 13 = u32be dc36 13 ∧ u24be ac36 17 = u24be dc36 17) ∧
    (∃ a d, decAc rawDefault ((ac36.set 15 0#8).set 16 5#8) 0 = .ok (.ac a) ∧
      decDc rawDefault ((dc36.set 15 0x13#8).set 16 0x88#8) 0 = .ok (.dc d) ∧
      a.energyMwh = d.energyMwh ∧ a.priceC = d.priceC) :=
  ⟨⟨_, _, rfl, rfl, by decide, by decide⟩, ⟨_, _, rfl, rfl, by decide, by decide⟩⟩

theorem witness_ReadingFieldsFitTheirWidths :
    (2 ^ 32 - 1 : Nat) < 2 ^ 32 ∧ (∃ r, decAc rawDefault ac36 (2 ^ 32 - 1) = .ok (.ac r)) ∧
    ∃ r, decDc rawDefault dc36 (2 ^ 32 - 1) = .ok (.dc r) :=
  ⟨by decide, ⟨_, rfl⟩, ⟨_, rfl⟩⟩

theorem witness_primitive_codecs :
    (0 + 4 ≤ (hex 4 0x00000000).length ∧ 4294967295 < 256 ^ 4) ∧
    ((0 : Int) ≤ 60 ∧ (-1 : Int) < 0 ∧ (60 : Int) < 61 ∧ (0 : Int) ≤ 0 ∧ (60 : Int) ≤ 60) ∧ 0 < 1000000 ∧
    (65535 < 65536 ∧ 255 < 256) ∧ (999 ≤ 999 ∧ 99 ≤ 99) := by decide

/-- A well-formed instruction of every constructor, operands at the ends of their ranges. -/
theorem witness_DecodeOfEncodeIsTheInstruction :
    ([.clear, .flush, .feed 0xFF#8 true, .encode 15#4 0xFF#8 0xFFFFFFFF#32, .resetWh 1#8 0#8, .resetAh 3#8 0xFF#8,
      .resetDuration 2#8 0#8, .resetAll 1#8 0#8, .setBacklightTime 3#8 60#32 0#8, .setBacklightTime 1#8 0#32 0#8,
      .setPrice 1#8 1#32 0#8, .setPrice 3#8 999999#32 0#8, .setup 1#8 0#8, .enter 3#8 0#8, .setPlus 1#8 0#8,
      .setPlus 2#8 0#8, .setPlusUsb 0#8, .setMinus 2#8 0#8, .setMinusUsb 0xFF#8,
      .reportAc (List.replicate 31 0#8) 0#8, .reportDc (List.replicate 31 0xFF#8) 0#8,
      .reportUsb (List.replicate 31 0#8) 0#8] : List Instr).all (fun i => i.wf defaultParams.raw) = true := by decide

theorem witness_EncodeOfDecodeIsTheFrame :
    hdrLead (hex 10 0xFF551103210000003F17) = true ∧
    decode rawDefault (hex 10 0xFF551103210000003F17) = .ok (.setBacklightTime 3#8 63#32 0x17#8) := by decide

end Sys2Proof.Tests
end

section
/-! PROOFS. The Checksum and Validator (42_checksum_validator.md): the values every admissible checksum has. -/

namespace Sys2Proof.Proofs

open Sys2Proof.Machine

/-- Settles O33: every row of the table holds for every selector (`ck_vectors`), whether the checksum is the fitted
default, a free function that passed the check, or the default in the place of one that did not; the statement lists
the table's rows. -/
theorem checksumHasTheTwelveValues : Obligations.ChecksumHasTheTwelveValues := by
  intro c
  have rows : ∀ r ∈ ckVectors, ck c r.1 = r.2 := fun _ hr => ck_vectors c hr
  simpa only [ckVectors, List.forall_mem_cons, List.not_mem_nil, false_implies, implies_true, and_true] using rows

end Sys2Proof.Proofs
end

section
/-! PROOFS. The Packet Decoder with device-variant dispatch (43_packet_decoder.md): the DISPATCH ROM and what DECODE
answers for a device outside it. -/

namespace Sys2Proof.Proofs

open Sys2Proof.Machine

/-- Settles O38: the three valid entries by the ROM's own rows, the others by `dispatch_eq_none`. -/
theorem dispatchIsTheRom : Obligations.DispatchIsTheRom :=
  ⟨rfl, rfl, rfl, fun d hac hdc husb => (dispatch_eq_none d).mpr ⟨hac, hdc, husb⟩⟩

/-- A frame that passes the checks has at least five bytes, so the device byte DECODE reads is the frame's own and not
the free value past its end (R11, R152). -/
theorem getElem?_device_of_precheck {P : RawParams} {f : Bytes} (hpre : precheck P f = none) :
    f[3]? = some (byteAt f 3) := by
  obtain ⟨hlen, -⟩ := (precheck_eq_none P f).mp hpre
  have hlt : 3 < f.length := by omega
  rw [byteAt_of_lt hlt, List.getElem?_eq_getElem hlt]

/-- Step 3 of DECODE (R150, R156): after the earlier checks the ROM alone decides, before any length of a variant. -/
theorem decodeFrame_of_dispatch_eq_none {P : RawParams} {f : Bytes} (hpre : precheck P f = none)
    (hdev : dispatch (byteAt f 3) = none) (co2f : Nat) :
    decodeFrame P f false co2f = .failure .unknownDeviceType := by
  simp [decodeFrame, hpre, hdev]

/-- Settles O39: the frame's fourth byte is the byte dispatched on, and the five-byte frame passes the checks with the
device byte 09, which the ROM does not have. -/
theorem unknownDevicesAreReportedAsSuch : Obligations.UnknownDevicesAreReportedAsSuch := by
  constructor
  · intro P f co2f hpre hdev
    exact decodeFrame_of_dispatch_eq_none hpre (hdev _ (getElem?_device_of_precheck hpre)) co2f
  · intro co2f
    have hpre : precheck rawDefault [0xFF#8, 0x55#8, 0x01#8, 0x09#8, 0x4E#8] = none := by decide
    exact decodeFrame_of_dispatch_eq_none hpre ((dispatch_eq_none 0x09#8).mpr (by decide)) co2f

end Sys2Proof.Proofs
end

section
/-! PROOFS. The Command Encoder (44_command_encoder.md): what ENCODE and the twelve command kinds send, and how they
fail. -/

namespace Sys2Proof.Proofs

open Sys2Proof.Machine

/-! ### The value of a command (R75, R105) -/

theorem clamp_eq_max_min {lo hi : Int} (h : lo ≤ hi) (x : Int) : clamp x lo hi = max lo (min x hi) := by
  unfold clamp
  split
  · omega
  · split <;> omega

/-- A clamped value between bounds that are 32-bit words is written as it is: no bit of it is lost. -/
theorem toNat_ofInt_clamp {lo hi : Int} (hlo : 0 ≤ lo) (hle : lo ≤ hi) (hhi : hi < 2 ^ 32) (x : Int) :
    (BitVec.ofInt 32 (clamp x lo hi)).toNat = (max lo (min x hi)).toNat := by
  rw [clamp_eq_max_min hle, BitVec.toNat_ofInt]
  omega

theorem valueOf_zero_toNat (arg : Word32) : (valueOf .zero arg).toNat = 0 := rfl

theorem valueOf_clampBl_toNat (arg : Word32) : (valueOf .clampBl arg).toNat = (max 0 (min arg.toInt 60)).toNat :=
  toNat_ofInt_clamp (by decide) (by decide) (by decide) arg.toInt

theorem valueOf_clampPrice_toNat (arg : Word32) :
    (valueOf .clampPrice arg).toNat = (max 1 (min arg.toInt 999999)).toNat :=
  toNat_ofInt_clamp (by decide) (by decide) (by decide) arg.toInt

/-- ASSEMBLE writes the value big-endian (R104, R194). -/
theorem assemble_eq_of_toNat (P : RawParams) (dev opc : Byte) {v : Word32} {n : Nat} (hv : v.toNat = n) :
    assemble P dev opc v = commandFrame P dev opc (BitVec.ofNat 8 (n / 16777216)) (BitVec.ofNat 8 (n / 65536))
      (BitVec.ofNat 8 (n / 256)) (BitVec.ofNat 8 n) := by
  simp [assemble_eq, byteOfWord_eq, hv]

/-! ### ENCODE, and the twelve command kinds as ENCODE -/

theorem dispatch_eq_none_iff_not_isDevice (dev : Byte) : dispatch dev = none ↔ ¬ isDevice dev := by
  rw [dispatch_eq_none, isDevice]
  tauto

theorem exec_encode (op : BitVec 4) (dev : Byte) (arg : Word32) (s : State) :
    exec (.encode op dev arg) s = .next (s.emit [encodeEvent s.par.raw op dev arg]) := rfl

/-- A command kind runs as the request that stands for it (R70, R78). -/
theorem exec_eq_exec_encode {i : Instr} {op : BitVec 4} {dev : Byte} {arg : Word32}
    (hreq : requestOf i = some (op, dev, arg)) (s : State) : exec i s = exec (.encode op dev arg) s := by
  cases i <;> cases hreq <;> rfl

/-- ENCODE for a device: the opcode and the value mode are the ROM's, `n` is the value (R190, R191, R194). -/
theorem exec_encode_of_isDevice {op : BitVec 4} {dev opc : Byte} {arg : Word32} {o : EncOp} {mode : ValueMode} {n : Nat}
    (hop : encOpOf op = some o) (hrom : opcodeRom o (dev == 0x03#8) = (opc, mode))
    (hval : (valueOf mode arg).toNat = n) (hdev : isDevice dev) (s : State) :
    exec (.encode op dev arg) s = .next (s.emit [.encoded (commandFrame s.par.raw dev opc (BitVec.ofNat 8 (n / 16777216))
      (BitVec.ofNat 8 (n / 65536)) (BitVec.ofNat 8 (n / 256)) (BitVec.ofNat 8 n))]) := by
  have hsel : encodeEvent s.par.raw op dev arg = commandEvent s.par.raw o dev arg := by simp [encodeEvent, hop]
  rw [exec_encode, hsel]
  obtain ⟨hnone, -⟩ | ⟨-, hframe⟩ := commandEvent_cases s.par.raw o dev arg
  · exact absurd hdev ((dispatch_eq_none_iff_not_isDevice dev).mp hnone)
  · rw [hframe, hrom, assemble_eq_of_toNat _ _ _ hval]

/-- ENCODE for a device type that is none fails whatever the selector (R193). -/
theorem exec_encode_of_not_isDevice {dev : Byte} (hdev : ¬ isDevice dev) (op : BitVec 4) (arg : Word32) (s : State) :
    exec (.encode op dev arg) s = .next (s.emit [.failure .invalidOperation]) := by
  have hnone := (dispatch_eq_none_iff_not_isDevice dev).mpr hdev
  rw [exec_encode]
  cases hop : encOpOf op with
  | none => simp [encodeEvent, hop]
  | some o => simp [encodeEvent, hop, commandEvent, hnone]

/-- An operation of value mode ZERO sends its opcode and the value 0, whatever the argument (R75, R191). -/
theorem exec_encode_of_zeroMode {op : BitVec 4} {dev opc : Byte} {o : EncOp} (hop : encOpOf op = some o)
    (hrom : opcodeRom o (dev == 0x03#8) = (opc, .zero)) (hdev : isDevice dev) (arg : Word32) (s : State) :
    exec (.encode op dev arg) s = .next (s.emit [.encoded (commandFrame s.par.raw dev opc 0#8 0#8 0#8 0#8)]) :=
  exec_encode_of_isDevice hop hrom (valueOf_zero_toNat arg) hdev s

theorem exec_of_zeroMode {i : Instr} {op : BitVec 4} {dev opc : Byte} {arg : Word32} {o : EncOp}
    (hreq : requestOf i = some (op, dev, arg)) (hop : encOpOf op = some o)
    (hrom : opcodeRom o (dev == 0x03#8) = (opc, .zero)) (hdev : isDevice dev) (s : State) :
    exec i s = .next (s.emit [.encoded (commandFrame s.par.raw dev opc 0#8 0#8 0#8 0#8)]) :=
  (exec_eq_exec_encode hreq s).trans (exec_encode_of_zeroMode hop hrom hdev arg s)

theorem exec_of_not_isDevice {i : Instr} {op : BitVec 4} {dev : Byte} {arg : Word32}
    (hreq : requestOf i = some (op, dev, arg)) (hdev : ¬ isDevice dev) (s : State) :
    exec i s = .next (s.emit [.failure .invalidOperation]) :=
  (exec_eq_exec_encode hreq s).trans (exec_encode_of_not_isDevice hdev op arg s)

/-- Both forms in which a statement takes a command: its own instruction, and ENCODE with its selector. -/
theorem exec_eq_exec_encode_of_or {i j : Instr} {op : BitVec 4} {dev : Byte} {arg : Word32}
    (hreq : requestOf j = some (op, dev, arg)) (hi : i = j ∨ i = .encode op dev arg) (s : State) :
    exec i s = exec (.encode op dev arg) s := by
  obtain rfl | rfl := hi
  · exact exec_eq_exec_encode hreq s
  · rfl

/-- A command frame whose checksum is known, written out (R72). -/
theorem commandFrame_eq_of_ck {P : RawParams} {dev opc b5 b6 b7 b8 c : Byte}
    (hck : ck P.ck [0xFF#8, 0x55#8, 0x11#8, dev, opc, b5, b6, b7, b8] = c) :
    commandFrame P dev opc b5 b6 b7 b8 = [0xFF#8, 0x55#8, 0x11#8, dev, opc, b5, b6, b7, b8, c] := by
  rw [commandFrame, hck]

/-! ### The obligations -/

/-- Settles O26: every row is the ROM's own, and only the last two look at `is_usb`. -/
theorem opcodeRomIsTheTable : Obligations.OpcodeRomIsTheTable :=
  fun _ => ⟨rfl, rfl, rfl, rfl, rfl, rfl, rfl, rfl, rfl, rfl⟩

/-- Settles O29: each of the six is a row of value mode ZERO (`opcodeRomIsTheTable`), and the instruction form runs as
its request. -/
theorem plainCommandsSendTheirOpcodeAndZero : Obligations.PlainCommandsSendTheirOpcodeAndZero := by
  intro s dev cks arg sends fails both
  have sent : ∀ {i : Instr} {op : BitVec 4} {o : EncOp} {opc : Byte}, requestOf i = some (op, dev, 0#32) →
      encOpOf op = some o → opcodeRom o (dev == 0x03#8) = (opc, .zero) → isDevice dev → both i op (sends opc) :=
    fun hreq hop hrom hdev => ⟨exec_of_zeroMode hreq hop hrom hdev s, exec_encode_of_zeroMode hop hrom hdev arg s⟩
  have failed : ∀ {i : Instr} {op : BitVec 4}, requestOf i = some (op, dev, 0#32) → ¬ isDevice dev →
      both i op fails :=
    fun hreq hdev => ⟨exec_of_not_isDevice hreq hdev s, exec_encode_of_not_isDevice hdev _ arg s⟩
  obtain ⟨hwh, hah, hduration, hall, -, -, hsetup, henter, -, -⟩ := opcodeRomIsTheTable (dev == 0x03#8)
  exact ⟨fun hdev => ⟨sent rfl rfl hwh hdev, sent rfl rfl hah hdev, sent rfl rfl hduration hdev,
      sent rfl rfl hall hdev, sent rfl rfl hsetup hdev, sent rfl rfl henter hdev⟩,
    fun hdev => ⟨failed rfl hdev, failed rfl hdev, failed rfl hdev, failed rfl hdev, failed rfl hdev,
      failed rfl hdev⟩⟩

/-- Settles O30: the clamped argument is at most 60, so the three upper bytes of the value are 0. -/
theorem setBacklightTimeSendsTheClampedSeconds : Obligations.SetBacklightTimeSendsTheClampedSeconds := by
  intro s dev cks arg i hi
  rw [exec_eq_exec_encode_of_or rfl hi s]
  refine ⟨fun hdev => ?_, fun hdev => exec_encode_of_not_isDevice hdev _ arg s⟩
  obtain ⟨t, ht, hle⟩ : ∃ t : Nat, max 0 (min arg.toInt 60) = t ∧ t ≤ 60 :=
    ⟨(max 0 (min arg.toInt 60)).toNat, by omega, by omega⟩
  have hval : (valueOf .clampBl arg).toNat = t := by rw [valueOf_clampBl_toNat, ht, Int.toNat_natCast]
  have h5 : t / 16777216 = 0 := by omega
  have h6 : t / 65536 = 0 := by omega
  have h7 : t / 256 = 0 := by omega
  have hframe := exec_encode_of_isDevice (op := 4#4) (o := .setBacklightTime) rfl rfl hval hdev s
  rw [h5, h6, h7] at hframe
  rw [ht, BitVec.ofInt_natCast]
  exact hframe

/-- Settles O31: the clamped price is at most 999999 = 0x0F423F, so byte 5 is 0 and byte 6 at most 0F. -/
theorem setPriceSendsTheClampedPrice : Obligations.SetPriceSendsTheClampedPrice := by
  intro s dev cks arg i p
  have hp : p ≤ 999999 := by omega
  refine ⟨by omega, fun hi => ?_⟩
  rw [exec_eq_exec_encode_of_or rfl hi s]
  refine ⟨fun hdev => ?_, fun hdev => exec_encode_of_not_isDevice hdev _ arg s⟩
  have hval : (valueOf .clampPrice arg).toNat = p := valueOf_clampPrice_toNat arg
  have h5 : p / 16777216 = 0 := by omega
  have hframe := exec_encode_of_isDevice (op := 5#4) (o := .setPrice) rfl rfl hval hdev s
  rw [h5] at hframe
  exact hframe

/-- Settles O32: the ROM's last two rows look at `is_usb`; the two checksum bytes are rows of CK_VECTORS
(`checksumHasTheTwelveValues`). -/
theorem setPlusAndSetMinusKeepTheDeviceThreeException : Obligations.SetPlusAndSetMinusKeepTheDeviceThreeException := by
  intro s dev cks arg sends fails
  obtain ⟨-, -, -, -, -, -, -, -, hplus, hminus⟩ := opcodeRomIsTheTable (dev == 0x03#8)
  simp only [beq_iff_eq] at hplus hminus
  have husb : isDevice 0x03#8 := by decide
  obtain ⟨-, -, -, -, -, -, -, -, hck11, hck12, -, -⟩ := checksumHasTheTwelveValues s.par.raw.ck
  refine ⟨fun hdev => ⟨?_, ?_, ?_, ?_⟩, ?_, ?_, ?_, ?_, fun hdev => ⟨?_, ?_, ?_, ?_⟩⟩
  · exact exec_of_zeroMode rfl rfl hplus hdev s
  · exact exec_encode_of_zeroMode rfl hplus hdev arg s
  · exact exec_of_zeroMode rfl rfl hminus hdev s
  · exact exec_encode_of_zeroMode rfl hminus hdev arg s
  · exact exec_of_zeroMode (o := .setPlus) rfl rfl rfl husb s
  · exact exec_of_zeroMode (o := .setMinus) rfl rfl rfl husb s
  · exact commandFrame_eq_of_ck hck11
  · exact commandFrame_eq_of_ck hck12
  · exact exec_of_not_isDevice rfl hdev s
  · exact exec_of_not_isDevice rfl hdev s
  · exact exec_encode_of_not_isDevice hdev _ arg s
  · exact exec_encode_of_not_isDevice hdev _ arg s

end Sys2Proof.Proofs
end

section
/-! PROOFS. From bits to instructions and back (30_encoding.md): what `decode` answers on the encoding of an
instruction, and that a frame it accepts is the encoding of its answer. -/

namespace Sys2Proof.Proofs

open Sys2Proof.Machine

/-! ### Port words (R77) -/

/-- The four instructions a beat carries by a strobe (R77). -/
inductive IsPortInstr : Instr → Prop
  | clear : IsPortInstr .clear
  | flush : IsPortInstr .flush
  | feed (data : Byte) (last : Bool) : IsPortInstr (.feed data last)
  | encode (op : BitVec 4) (dev : Byte) (arg : Word32) : IsPortInstr (.encode op dev arg)

/-- A beat with every input at 0. -/
def zeroBeat : Beat := ⟨false, false, false, 0x00#8, false, false, 0#4, 0x00#8, 0#32, false, 0#32⟩

/-- The encoding of a port instruction is the port word of a beat with its one strobe. -/
theorem encode_eq_portWordOfBeat {i : Instr} (hi : IsPortInstr i) (P : RawParams) :
    ∃ b : Beat, encode P i = portWordOfBeat b ∧ instrsOfBeat b = [i] := by
  cases hi with
  | clear => exact ⟨{ zeroBeat with clear := true }, rfl, rfl⟩
  | flush => exact ⟨{ zeroBeat with flush := true }, rfl, rfl⟩
  | feed data last =>
    refine ⟨{ zeroBeat with rxValid := true, rxData := data, rxLast := last }, ?_, rfl⟩
    simp [encode, portWordOfBeat, patternByte, zeroBeat]
  | encode op dev arg =>
    refine ⟨{ zeroBeat with encReq := true, encOp := op, encDev := dev, encArg := arg }, ?_, rfl⟩
    simp [encode, portWordOfBeat, patternByte, zeroBeat]

theorem decode_encode_of_isPortInstr {i : Instr} (hi : IsPortInstr i) (P : RawParams) :
    decode P (encode P i) = .ok i := by
  obtain ⟨b, hword, hinstr⟩ := encode_eq_portWordOfBeat hi P
  rw [hword, decode_portWordOfBeat P b hinstr]

/-- A beat that presents the encoding of a port instruction carries that instruction and no other. -/
theorem instrsOfBeat_beatOfPortWord_encode {i : Instr} (hi : IsPortInstr i) (P : RawParams) (sel : Bool)
    (ppm : Word32) : instrsOfBeat (beatOfPortWord sel ppm (encode P i)) = [i] := by
  obtain ⟨b, hword, hinstr⟩ := encode_eq_portWordOfBeat hi P
  rw [hword, beatOfPortWord_portWordOfBeat]
  exact hinstr

/-! ### Command frames (R72, R79, R84) -/

/-- The devices of a well-formed instruction pass the decoder's device test. -/
theorem toNat_le_three_of_devOk {dev : Byte} (h : devOk dev = true) : dev.toNat ≤ 3 := by
  simp only [devOk, Bool.or_eq_true, decide_eq_true_eq] at h
  obtain (rfl | rfl) | rfl := h <;> decide

/-- The devices of the rows setPlus and setMinus pass it too, and are not the one these rows leave out. -/
theorem of_devNotUsb {dev : Byte} (h : devNotUsb dev = true) : dev.toNat ≤ 3 ∧ dev ≠ 0x03#8 := by
  simp only [devNotUsb, Bool.or_eq_true, decide_eq_true_eq] at h
  obtain rfl | rfl := h <;> decide

@[simp] theorem decodeZeroValue_zero (i : Instr) : decodeZeroValue 0#32 i = .ok i := rfl

/-- Each of the twelve command kinds, written by the encoder, is read back by its own row. -/
theorem decode_encode_of_requestOf {P : RawParams} {i : Instr} (hwf : i.wf P = true) (hreq : requestOf i ≠ none) :
    decode P (encode P i) = .ok i := by
  cases i with
  | clear | flush | feed | encode | reportAc | reportDc | reportUsb => exact absurd rfl hreq
  | resetWh dev cks | resetAh dev cks | resetDuration dev cks | resetAll dev cks | setup dev cks | enter dev cks =>
    have hdev := toNat_le_three_of_devOk hwf
    simp [encode, decode_commandBytes, decodeCommand, hdev]
  | setBacklightTime dev arg cks =>
    simp only [Instr.wf, Bool.and_eq_true, decide_eq_true_eq] at hwf
    obtain ⟨hdevOk, harg⟩ := hwf
    have hdev := toNat_le_three_of_devOk hdevOk
    have hform : arg.toNat < 64 := by omega
    simp [encode, decode_commandBytes, decodeCommand, hdev, hform]
  | setPrice dev arg cks =>
    simp only [Instr.wf, Bool.and_eq_true, decide_eq_true_eq] at hwf
    obtain ⟨⟨hdevOk, -⟩, harg⟩ := hwf
    have hdev := toNat_le_three_of_devOk hdevOk
    have hform : arg.toNat < 1048576 := by omega
    simp [encode, decode_commandBytes, decodeCommand, hdev, hform]
  | setPlus dev cks | setMinus dev cks =>
    obtain ⟨hdev, husb⟩ := of_devNotUsb hwf
    simp [encode, decode_commandBytes, decodeCommand, hdev, husb]
  | setPlusUsb cks | setMinusUsb cks =>
    simp [encode, decode_commandBytes, decodeCommand]

theorem decodeZeroValue_eq_ok {v : Word32} {i j : Instr} (h : decodeZeroValue v i = .ok j) : v = 0#32 ∧ i = j := by
  unfold decodeZeroValue at h
  split at h
  · exact ⟨‹_›, Except.ok.inj h⟩
  · cases h

/-- One test in the decoder's list of rows: what follows from either branch follows from the list. -/
theorem of_ite_eq_ok {c G : Prop} [Decidable c] {x y : Except DecodeRefusal Instr} {i : Instr}
    (hthen : c → x = .ok i → G) (helse : y = .ok i → G) : (if c then x else y) = .ok i → G := by
  split
  · exact hthen ‹_›
  · exact helse

/-- What the command decoder accepts is written back as it was, row by row in the decoder's order: the row has that
opcode, and a row of value mode ZERO was chosen for the value 0 only. -/
theorem encode_of_decodeCommand {P : RawParams} {dev opc cks : Byte} {v : Word32} {i : Instr} :
    decodeCommand dev opc v cks = .ok i → encode P i = commandBytes dev opc v cks := by
  have refused : ∀ {e : DecodeRefusal}, Except.error e = Except.ok i → encode P i = commandBytes dev opc v cks :=
    fun h => nomatch h
  have zeroRow : ∀ {o : Byte} {j : Instr}, encode P j = commandBytes dev o 0#32 cks → opc = o →
      decodeZeroValue v j = .ok i → encode P i = commandBytes dev opc v cks := by
    intro o j henc hopc hj
    obtain ⟨rfl, rfl⟩ := decodeZeroValue_eq_ok hj
    rw [henc, hopc]
  have valueRow : ∀ {c : Prop} [Decidable c] {o : Byte} {j : Instr} {e : DecodeRefusal},
      encode P j = commandBytes dev o v cks → opc = o → (if c then .ok j else .error e) = Except.ok i →
      encode P i = commandBytes dev opc v cks := by
    intro c _ o j e henc hopc
    refine of_ite_eq_ok (fun _ hj => ?_) refused
    rw [← Except.ok.inj hj, henc, hopc]
  refine of_ite_eq_ok (fun _ => refused) ?_
  refine of_ite_eq_ok (zeroRow rfl) ?_
  refine of_ite_eq_ok (zeroRow rfl) ?_
  refine of_ite_eq_ok (zeroRow rfl) ?_
  refine of_ite_eq_ok (zeroRow rfl) ?_
  refine of_ite_eq_ok (valueRow rfl) ?_
  refine of_ite_eq_ok (valueRow rfl) ?_
  refine of_ite_eq_ok (zeroRow rfl) ?_
  refine of_ite_eq_ok (zeroRow rfl) ?_
  refine of_ite_eq_ok (fun hopc => of_ite_eq_ok (fun _ => refused) (zeroRow rfl hopc)) ?_
  refine of_ite_eq_ok (fun hopc => of_ite_eq_ok (fun _ => refused) (zeroRow rfl hopc)) ?_
  refine of_ite_eq_ok (fun hopc => of_ite_eq_ok (fun hdev => zeroRow (by rw [hdev]; rfl) hopc) refused) ?_
  refine of_ite_eq_ok (fun hopc => of_ite_eq_ok (fun hdev => zeroRow (by rw [hdev]; rfl) hopc) refused) ?_
  exact refused

/-! ### Report frames (R73) -/

theorem encode_reportInstr (P : RawParams) (v : Variant) (body : Bytes) (cks : Byte) :
    encode P (reportInstr v body cks) = reportBytes P v body cks := by
  cases v <;> rfl

theorem wf_reportInstr_iff (P : RawParams) (v : Variant) (body : Bytes) (cks : Byte) :
    (reportInstr v body cks).wf P = true ↔ body.length + 5 = reportLen P v := by
  cases v <;> simp [reportInstr, Instr.wf, reportLen]

theorem decode_encode_reportInstr {P : Params} {v : Variant} {body : Bytes} {cks : Byte}
    (hwf : (reportInstr v body cks).wf P.raw = true) :
    decode P.raw (encode P.raw (reportInstr v body cks)) = .ok (reportInstr v body cks) := by
  obtain ⟨htag, -⟩ := P.bounds
  rw [encode_reportInstr, decode_reportBytes P.raw htag, if_pos ((wf_reportInstr_iff ..).mp hwf)]

theorem five_le_reportLen (P : Params) (v : Variant) : 5 ≤ reportLen P.raw v := by
  obtain ⟨-, -, ⟨hac, -⟩, ⟨hdc, -⟩, ⟨husb, -⟩⟩ := P.bounds
  cases v <;> assumption

/-- The ROM's device byte of a variant is the only one it dispatches to that variant (R155). -/
theorem deviceByte_of_dispatch {dev : Byte} {v : Variant} (h : dispatch dev = some v) : deviceByte v = dev := by
  unfold dispatch at h
  repeat' split at h
  all_goals cases h
  all_goals exact Eq.symm ‹_›

/-- What the report decoder accepts has the variant's length, so at least the checksum byte, and is written back. -/
theorem encode_of_decodeReport {P : Params} {dev : Byte} {rest : Bytes} {i : Instr}
    (h : decodeReport P.raw dev rest = .ok i) :
    encode P.raw i = [0xFF#8, 0x55#8, P.raw.reportTag, dev] ++ rest := by
  unfold decodeReport at h
  split at h
  · cases h
  · rename_i v hv
    split at h
    · rename_i hlen
      cases h
      have hpos := five_le_reportLen P v
      have hrest : rest ≠ [] := by rintro rfl; simp at hlen; omega
      rw [encode_reportInstr, reportBytes, deviceByte_of_dispatch hv, List.append_assoc, List.getLastD_eq_getLast?,
        List.getLast?_eq_getLast_of_ne_nil hrest, Option.getD_some, List.dropLast_append_getLast hrest]
    · cases h

/-! ### The obligations -/

/-- Settles O56: by the three formats, port words, command frames and report frames. -/
theorem decodeOfEncodeIsTheInstruction : Obligations.DecodeOfEncodeIsTheInstruction := by
  intro P i hwf
  cases i with
  | clear => exact decode_encode_of_isPortInstr .clear P.raw
  | flush => exact decode_encode_of_isPortInstr .flush P.raw
  | feed data last => exact decode_encode_of_isPortInstr (.feed data last) P.raw
  | encode op dev arg => exact decode_encode_of_isPortInstr (.encode op dev arg) P.raw
  | reportAc body cks => exact decode_encode_reportInstr (v := .ac) hwf
  | reportDc body cks => exact decode_encode_reportInstr (v := .dc) hwf
  | reportUsb body cks => exact decode_encode_reportInstr (v := .usb) hwf
  | _ => exact decode_encode_of_requestOf hwf (Option.some_ne_none _)

/-- Settles O57: behind the header the tag decides between the command rows and the report rows, and each writes back
what it accepted. -/
theorem encodeOfDecodeIsTheFrame : Obligations.EncodeOfDecodeIsTheFrame := by
  intro P f i hlead hdec
  match f with
  | [] | [_] => simp [hdrLead] at hlead
  | [_, _] | [_, _, _] => cases hdec
  | h0 :: h1 :: tag :: dev :: rest =>
    simp only [hdrLead, Bool.and_eq_true, decide_eq_true_eq] at hlead
    obtain ⟨rfl, rfl⟩ := hlead
    simp only [decode, hdr0, hdr1, and_self, if_true] at hdec
    split at hdec
    · rename_i htag
      split at hdec
      · rw [encode_of_decodeCommand hdec, commandBytes, bytesOf32_word32Of, htag]
        rfl
      · cases hdec
    · split at hdec
      · rename_i htag
        rw [encode_of_decodeReport hdec, htag]
        rfl
      · cases hdec

/-- Settles O58: the decoder evaluated on the seven words. -/
theorem wordsOfTheSpecDecode : Obligations.WordsOfTheSpecDecode := by
  refine ⟨?_, ?_, ?_, ?_, ?_, ?_, ?_⟩ <;> decide

end Sys2Proof.Proofs
end

section
/-! PROOFS. The Frame Reassembler (41_reassembler.md): CLEAR, FLUSH and FEED as instructions, FEED of a whole chunk, and
the frame of every other instruction. -/

namespace Sys2Proof.Proofs

open Sys2Proof.Machine

/-! ### APPEND and STORE -/

theorem append_length (cap : Nat) (x : Byte) (r : ReassemblyState) :
    (append cap x r).buf.length = max r.buf.length (min (r.buf.length + 1) cap) := by
  obtain ⟨hroom, e⟩ | ⟨hfull, e⟩ := append_cases cap x r
  · rw [e, List.length_append, List.length_singleton]
    omega
  · rw [e, Nat.max_eq_left (by omega)]

theorem append_length_le (cap : Nat) (x : Byte) (r : ReassemblyState) :
    (append cap x r).buf.length ≤ r.buf.length + 1 := by
  rw [append_length]
  omega

/-- Two appended bytes are in the buffer, or it was full before them: two bytes are in it in every case. -/
theorem two_le_length_append_append {cap : Nat} (hcap : 2 ≤ cap) (x y : Byte) (r : ReassemblyState) :
    2 ≤ (append cap y (append cap x r)).buf.length := by
  rw [append_length, append_length]
  omega

/-- R127: the first `cap` bytes of what was buffered and the chunk, and whether that is not all of it. -/
theorem store_eq_take {cap : Nat} {r : ReassemblyState} (h : r.buf.length ≤ cap) (c : Bytes) :
    store cap c r = ⟨(r.buf ++ c).take cap, r.ovf || decide (cap < (r.buf ++ c).length)⟩ := by
  have hlt : cap - r.buf.length < c.length ↔ cap < r.buf.length + c.length := by omega
  simp [store, ovfAfter, List.take_append, List.take_of_length_le h, hlt]

/-- R123: STORE written out by whether the chunk fits. -/
theorem store_eq_ite (cap : Nat) (c : Bytes) (r : ReassemblyState) :
    store cap c r = if c.length ≤ cap - r.buf.length then ⟨r.buf ++ c, r.ovf⟩
      else ⟨r.buf ++ c.take (cap - r.buf.length), true⟩ := by
  obtain ⟨hfits, e⟩ | ⟨hover, e⟩ := store_cases cap c r
  · rw [e, if_pos hfits]
  · rw [e, if_neg (by omega)]

/-! ### The header-leading predicate (R121) -/

theorem hdrLead_iff (f : Bytes) : hdrLead f = true ↔ (f[0]? = some 0xFF#8 ∧ f[1]? = some 0x55#8) := by
  match f with
  | [] => simp [hdrLead]
  | [_] => simp [hdrLead]
  | b0 :: b1 :: _ =>
    simp only [hdrLead, Bool.and_eq_true, decide_eq_true_eq, List.getElem?_cons_zero, List.getElem?_cons_succ,
      Option.some.injEq]
    rfl

theorem hdrLead_cons_cons (b0 b1 : Byte) (c : Bytes) : hdrLead (b0 :: b1 :: c) = true ↔ b0 = hdr0 ∧ b1 = hdr1 := by
  simp [hdrLead]

theorem hdrLead_append_right {c : Bytes} (h : hdrLead c = true) (d : Bytes) : hdrLead (c ++ d) = true := by
  match c with
  | [] | [_] => simp [hdrLead] at h
  | _ :: _ :: _ => exact h

theorem hdrLead_append {cap : Nat} {r : ReassemblyState} (h : hdrLead r.buf = true) (x : Byte) :
    hdrLead (append cap x r).buf = true := by
  obtain ⟨-, e⟩ | ⟨-, e⟩ := append_cases cap x r <;> rw [e]
  · exact hdrLead_append_right h [x]
  · exact h

/-! ### Emissions -/

@[simp] theorem pendingEvents_emptyRsm (P : RawParams) (co2f : Nat) : pendingEvents P co2f emptyRsm = [] := rfl

theorem pendingEvents_of_ne_nil {r : ReassemblyState} (h : r.buf ≠ []) (P : RawParams) (co2f : Nat) :
    pendingEvents P co2f r = [.frame r.buf r.ovf, decodeFrame P r.buf r.ovf co2f] := by
  rw [pendingEvents_eq, if_neg h]

/-! ### The instructions -/

theorem exec_clear (s : State) : exec .clear s = betweenChunks s (s.setRsm emptyRsm) := rfl

theorem exec_flush (s : State) : exec .flush s = betweenChunks s s.flushPending := rfl

theorem exec_feed (b : Byte) (last : Bool) (s : State) : exec (.feed b last) s = execFeed b last s := rfl

theorem betweenChunks_of_between {s : State} (h : s.cpos = .between) (s' : State) : betweenChunks s s' = .next s' :=
  betweenChunks_eq_next.mpr ⟨h, rfl⟩

/-- R262. -/
theorem betweenChunks_of_ne {s : State} (h : s.cpos ≠ .between) (s' : State) :
    betweenChunks s s' = .refused .strobeInsideChunk := if_neg h

/-- The device decoder of a variant. -/
def deviceDecoder : Variant → RawParams → Bytes → Nat → Except FailureKind Reading
  | .ac => decAc
  | .dc => decDc
  | .usb => decUsb

theorem exec_reportInstr (v : Variant) (body : Bytes) (cks : Byte) (s : State) :
    exec (reportInstr v body cks) s = .next (s.decodeAs (reportBytes s.par.raw v body cks)
      (deviceDecoder v s.par.raw (reportBytes s.par.raw v body cks) s.co2f)) := by
  cases v <;> rfl

theorem exec_of_requestOf {i : Instr} {op : BitVec 4} {dev : Byte} {arg : Word32}
    (hreq : requestOf i = some (op, dev, arg)) (s : State) :
    exec i s = .next (s.emit [encodeEvent s.par.raw op dev arg]) :=
  (exec_eq_exec_encode hreq s).trans (exec_encode op dev arg s)

/-- Every instruction but CLEAR, FLUSH and FEED adds one event and does nothing else (R56, R206). -/
theorem exec_eq_emit {i : Instr} (hclear : i ≠ .clear) (hflush : i ≠ .flush) (hfeed : ∀ b l, i ≠ .feed b l)
    (s : State) : ∃ e, exec i s = .next (s.emit [e]) := by
  have report : ∀ v body cks, ∃ e, exec (reportInstr v body cks) s = .next (s.emit [e]) := fun v body cks =>
    ⟨_, by rw [exec_reportInstr, decodeAs_eq]⟩
  cases i with
  | clear => exact absurd rfl hclear
  | flush => exact absurd rfl hflush
  | feed b l => exact absurd rfl (hfeed b l)
  | encode op dev arg => exact ⟨_, exec_encode op dev arg s⟩
  | reportAc body cks => exact report .ac body cks
  | reportDc body cks => exact report .dc body cks
  | reportUsb body cks => exact report .usb body cks
  | _ => exact ⟨_, exec_of_requestOf rfl s⟩

/-- Everything an instruction can do, once: for the proofs of what every instruction keeps. -/
theorem exec_eq_next_cases {i : Instr} {s t : State} (h : exec i s = .next t) :
    (s.cpos = .between ∧ t = s.setRsm emptyRsm) ∨ (s.cpos = .between ∧ t = s.flushPending) ∨
    (∃ b last, execFeed b last s = .next t) ∨ (∃ e, t = s.emit [e]) := by
  by_cases hclear : i = .clear
  · subst hclear
    obtain ⟨hpos, rfl⟩ := betweenChunks_eq_next.mp h
    exact .inl ⟨hpos, rfl⟩
  by_cases hflush : i = .flush
  · subst hflush
    obtain ⟨hpos, rfl⟩ := betweenChunks_eq_next.mp h
    exact .inr (.inl ⟨hpos, rfl⟩)
  by_cases hfeed : ∃ b l, i = .feed b l
  · obtain ⟨b, l, rfl⟩ := hfeed
    exact .inr (.inr (.inl ⟨b, l, h⟩))
  · push Not at hfeed
    obtain ⟨e, he⟩ := exec_eq_emit hclear hflush hfeed s
    rw [he] at h
    cases h
    exact .inr (.inr (.inr ⟨e, rfl⟩))

/-! ### FEED of one beat -/

theorem execFeed_of_between {s : State} (h : s.cpos = .between) (b : Byte) (l : Bool) :
    execFeed b l s = if l then .next (s.append b) else .next ((s.setHold b).setCpos .one) := by
  simp only [execFeed, h]

theorem execFeed_of_one {s : State} (h : s.cpos = .one) (b : Byte) (l : Bool) :
    execFeed b l s = .next ((((s.decideHeader b).append s.hold).append b).setCpos (afterByte l)) := by
  simp only [execFeed, h]

theorem execFeed_of_more {s : State} (h : s.cpos = .more) (b : Byte) (l : Bool) :
    execFeed b l s = .next ((s.append b).setCpos (afterByte l)) := by
  simp only [execFeed, h]

/-- What a completed header replaces the buffer by: nothing (R131). -/
theorem decideHeader_rsm (s : State) (b : Byte) :
    (s.decideHeader b).rsm = if s.hold = hdr0 ∧ b = hdr1 then emptyRsm else s.rsm := by
  obtain ⟨h, e⟩ | ⟨h, e⟩ := decideHeader_cases s b
  · rw [e, if_pos h, State.flushPending_rsm]
  · rw [e, if_neg h]

theorem decideHeader_out (s : State) (b : Byte) : (s.decideHeader b).out =
    s.out ++ pendingEvents s.par.raw s.co2f (if s.hold = hdr0 ∧ b = hdr1 then s.rsm else emptyRsm) := by
  obtain ⟨h, e⟩ | ⟨h, e⟩ := decideHeader_cases s b
  · rw [e, if_pos h, State.flushPending_out]
  · rw [e, if_neg h, pendingEvents_emptyRsm, List.append_nil]

/-- The decision touches the buffer and the events only. -/
theorem decideHeader_frame (s : State) (b : Byte) :
    (s.decideHeader b).par = s.par ∧ (s.decideHeader b).inputs = s.inputs ∧ (s.decideHeader b).hold = s.hold ∧
    (s.decideHeader b).co2fSel = s.co2fSel ∧ (s.decideHeader b).co2fPpm = s.co2fPpm := by
  obtain ⟨-, e⟩ | ⟨-, e⟩ := decideHeader_cases s b <;> rw [e] <;> exact ⟨rfl, rfl, rfl, rfl, rfl⟩

@[simp] theorem decideHeader_par (s : State) (b : Byte) : (s.decideHeader b).par = s.par := (decideHeader_frame s b).1

/-- What every FEED beat leaves as it is. -/
theorem execFeed_frame {s t : State} {b : Byte} {l : Bool} (h : execFeed b l s = .next t) :
    t.inputs = s.inputs ∧ t.par = s.par ∧ t.co2fSel = s.co2fSel ∧ t.co2fPpm = s.co2fPpm := by
  obtain ⟨-, -, e⟩ | ⟨-, -, e⟩ | ⟨-, e⟩ | ⟨-, e⟩ := execFeed_cases b l s <;> cases e.symm.trans h
  · exact ⟨rfl, rfl, rfl, rfl⟩
  · exact ⟨rfl, rfl, rfl, rfl⟩
  · obtain ⟨hpar, hinputs, -, hsel, hppm⟩ := decideHeader_frame s b
    exact ⟨hinputs, hpar, hsel, hppm⟩
  · exact ⟨rfl, rfl, rfl, rfl⟩

/-- The events of a FEED beat are those of an emission, of what is buffered or of nothing (R132). -/
theorem execFeed_out {s t : State} {b : Byte} {l : Bool} (h : execFeed b l s = .next t) :
    ∃ r, (r = emptyRsm ∨ r = s.rsm) ∧ t.out = s.out ++ pendingEvents s.par.raw s.co2f r := by
  obtain ⟨-, -, e⟩ | ⟨-, -, e⟩ | ⟨-, e⟩ | ⟨-, e⟩ := execFeed_cases b l s <;> cases e.symm.trans h
  · exact ⟨emptyRsm, .inl rfl, by simp⟩
  · exact ⟨emptyRsm, .inl rfl, by simp⟩
  · refine ⟨_, ?_, decideHeader_out s b⟩
    split
    · exact .inr rfl
    · exact .inl rfl
  · exact ⟨emptyRsm, .inl rfl, by simp⟩

/-! ### The obligations on single instructions -/

/-- Settles O1. -/
theorem clearDropsTheBufferSilently : Obligations.ClearDropsTheBufferSilently :=
  fun s hpos => ⟨(exec_clear s).trans (betweenChunks_of_between hpos _), rfl⟩

/-- Settles O2: FLUSH between chunks is the emission of what is buffered, which is nothing for an empty buffer. -/
theorem flushEmitsTheBufferThenEmptiesIt : Obligations.FlushEmitsTheBufferThenEmptiesIt := by
  intro s hpos
  rw [exec_flush, betweenChunks_of_between hpos, State.flushPending, pendingEvents_eq]
  rfl

/-- Settles O3: one clause for each case of `execFeed`, the emission written out by `pendingEvents_eq`. -/
theorem feedBeatFollowsThePerBeatRule : Obligations.FeedBeatFollowsThePerBeatRule := by
  intro s b l app fr pos
  refine ⟨fun hpos hl => ?_, fun hpos hl => ?_, fun hpos h0 h1 => ?_, fun hpos hne => ?_, fun hpos => ?_⟩
  · rw [exec_feed, execFeed_of_between hpos, if_pos hl]
    rfl
  · rw [exec_feed, execFeed_of_between hpos, hl]
    rfl
  · have hdecide : s.decideHeader b = s.flushPending := if_pos ⟨h0, h1⟩
    have hpending : pendingEvents s.par.raw s.co2f s.rsm = fr := pendingEvents_eq ..
    rw [exec_feed, execFeed_of_one hpos, hdecide, State.flushPending, hpending]
    rfl
  · have hdecide : s.decideHeader b = s := if_neg hne
    rw [exec_feed, execFeed_of_one hpos, hdecide]
    rfl
  · rw [exec_feed, execFeed_of_more hpos]
    rfl

/-- Settles O5: without the header decision a FEED beat appends at most two bytes, and APPEND moves none. -/
theorem feedKeepsTheBytesAlreadyBuffered : Obligations.FeedKeepsTheBytesAlreadyBuffered := by
  intro s t b l h
  refine ⟨fun hne => ?_, execFeed_frame h⟩
  have kept : ∀ x i, i < s.rsm.buf.length → (append s.par.raw.bufCap x s.rsm).readByte i = s.rsm.readByte i :=
    fun x i hi => append_readByte x hi
  obtain ⟨-, -, e⟩ | ⟨-, -, e⟩ | ⟨hpos, e⟩ | ⟨-, e⟩ := execFeed_cases b l s
  all_goals cases e.symm.trans h
  · have hle := append_length_le s.par.raw.bufCap b s.rsm
    exact ⟨kept b, by rw [State.append_rsm]; omega, rfl⟩
  · exact ⟨fun _ _ => rfl, Nat.le_add_right _ _, rfl⟩
  · have hdecide : s.decideHeader b = s := if_neg (fun hh => hne ⟨hpos, hh⟩)
    rw [hdecide]
    have hge := append_length_ge s.par.raw.bufCap s.hold s.rsm
    have hle := append_length_le s.par.raw.bufCap s.hold s.rsm
    have hle' := append_length_le s.par.raw.bufCap b (append s.par.raw.bufCap s.hold s.rsm)
    refine ⟨fun i hi => (append_readByte b (hi.trans_le hge)).trans (kept s.hold i hi), ?_, rfl⟩
    simp only [State.setCpos_rsm, State.append_rsm, State.append_par]
    omega
  · have hle := append_length_le s.par.raw.bufCap b s.rsm
    exact ⟨kept b, by rw [State.setCpos_rsm, State.append_rsm]; omega, rfl⟩

/-- Settles O6: an appended byte leaves the first two, and a completed header, whose two bytes fit any capacity, is at
the front of the emptied buffer. -/
theorem feedKeepsTheHeaderAtTheFront : Obligations.FeedKeepsTheHeaderAtTheFront := by
  intro s t b l hlead h
  obtain ⟨-, -, e⟩ | ⟨-, -, e⟩ | ⟨-, e⟩ | ⟨-, e⟩ := execFeed_cases b l s
  all_goals cases e.symm.trans h
  · exact hdrLead_append hlead b
  · exact hlead
  · obtain ⟨-, hcap, -⟩ := s.par.bounds
    simp only [State.setCpos_rsm, State.append_rsm, State.append_par, decideHeader_par, decideHeader_rsm]
    split
    · rename_i hheader
      have hfirst : append s.par.raw.bufCap s.hold emptyRsm = ⟨[s.hold], false⟩ := if_pos (by simp; omega)
      have hsecond : append s.par.raw.bufCap b ⟨[s.hold], false⟩ = ⟨[s.hold, b], false⟩ := if_pos (by simp; omega)
      rw [hfirst, hsecond]
      exact (hdrLead_cons_cons s.hold b []).mpr hheader
    · exact hdrLead_append (hdrLead_append hlead s.hold) b
  · exact hdrLead_append hlead b

/-- Settles O7. -/
theorem onlyFeedFlushClearChangeTheBuffer : Obligations.OnlyFeedFlushClearChangeTheBuffer :=
  fun _ s hclear hflush hfeed => exec_eq_emit hclear hflush hfeed s

/-! ### FEED of a whole chunk (R123, R127, R129) -/

theorem transact_feed_of_ne_nil {c : Bytes} (h : c ≠ []) (P : RawParams) (co2f : Nat) (r : ReassemblyState) :
    transact P co2f (.feed c) r = .next (feedChunk P co2f c r) := by
  cases c with
  | nil => exact absurd rfl h
  | cons b c => rfl

theorem feedChunk_of_hdrLead {c : Bytes} (h : hdrLead c = true) (P : RawParams) (co2f : Nat) (r : ReassemblyState) :
    feedChunk P co2f c r = (store P.bufCap c emptyRsm, pendingEvents P co2f r) := if_pos h

theorem feedChunk_of_not_hdrLead {c : Bytes} (h : ¬ hdrLead c = true) (P : RawParams) (co2f : Nat)
    (r : ReassemblyState) : feedChunk P co2f c r = (store P.bufCap c r, []) := if_neg h

/-- Settles O4. -/
theorem feedFollowsTheChunkRule : Obligations.FeedFollowsTheChunkRule := by
  intro P co2f chunk r hne stored
  have hstored : ∀ r, stored r = store P.bufCap chunk r := fun r => (store_eq_ite P.bufCap chunk r).symm
  rw [← hdrLead_iff, transact_feed_of_ne_nil hne, hstored, hstored]
  refine ⟨fun hlead => ?_, fun hlead => ?_⟩
  · rw [feedChunk_of_hdrLead hlead, pendingEvents_eq]
    rfl
  · rw [feedChunk_of_not_hdrLead hlead]

/-- Settles O23: the chunk is stored to the buffer, emptied first when the chunk is header-leading; a frame with
`ovf = 1` fails at DECODE's first check. -/
theorem overflowDropsWhatDoesNotFit : Obligations.OverflowDropsWhatDoesNotFit := by
  intro P co2f c r hr base
  have hbase : base.buf.length ≤ P.raw.bufCap := by
    simp only [base]
    split
    · exact Nat.zero_le _
    · exact hr
  have hfeed : (feedChunk P.raw co2f c r).1 = store P.raw.bufCap c base := by
    by_cases hlead : hdrLead c = true
    · have hb : base = emptyRsm := if_pos hlead
      rw [feedChunk_of_hdrLead hlead, hb]
    · have hb : base = r := if_neg hlead
      rw [feedChunk_of_not_hdrLead hlead, hb]
  exact ⟨hfeed.trans (store_eq_take hbase c), fun f => rfl⟩

/-- Settles O24: the transaction machine has a row of its own for the empty chunk. -/
theorem emptyChunkIsRefused : Obligations.EmptyChunkIsRefused := fun _ _ _ => rfl

/-! ### Fragmentation (R129) -/

/-- A line of a host program that feeds a chunk. -/
abbrev feedLine (c : Bytes) : ProgramLine := .op (.feed c)

theorem runProgram_feed_cons {c : Bytes} (hc : c ≠ []) (P : RawParams) (ls : List ProgramLine) (sel : Bool)
    (ppm : Word32) (r : ReassemblyState) :
    runProgram P (feedLine c :: ls) sel ppm r =
      afterEvents (feedChunk P (selectCo2f sel ppm) c r).2
        (runProgram P ls sel ppm (feedChunk P (selectCo2f sel ppm) c r).1) := by
  simp only [runProgram, transact_feed_of_ne_nil hc]

@[simp] theorem afterEvents_next (evs evs' : List Event) (r : ReassemblyState) :
    afterEvents evs (.next (r, evs')) = .next (r, evs ++ evs') := rfl

theorem store_of_fits {cap : Nat} {c : Bytes} {r : ReassemblyState} (h : (r.buf ++ c).length ≤ cap) :
    store cap c r = ⟨r.buf ++ c, r.ovf⟩ := by
  rw [List.length_append] at h
  rw [store_eq_ite, if_pos (by omega)]

/-- Chunks that are not header-leading and fit pile up in the buffer without an event; what the lines after them do is
not touched. -/
theorem runProgram_feed_fragments {P : RawParams} {cs : List Bytes} (hcs : ∀ d ∈ cs, d ≠ [] ∧ hdrLead d = false)
    {r : ReassemblyState} (hfits : (r.buf ++ cs.flatten).length ≤ P.bufCap) (ls : List ProgramLine) (sel : Bool)
    (ppm : Word32) :
    runProgram P (cs.map feedLine ++ ls) sel ppm r = runProgram P ls sel ppm ⟨r.buf ++ cs.flatten, r.ovf⟩ := by
  induction cs generalizing r with
  | nil => simp
  | cons d cs ih =>
    obtain ⟨hne, hlead⟩ := hcs d List.mem_cons_self
    rw [List.flatten_cons, ← List.append_assoc] at hfits
    have hd : (r.buf ++ d).length ≤ P.bufCap := by
      rw [List.length_append] at hfits
      omega
    have hnotlead : ¬ hdrLead d = true := by rw [hlead]; decide
    rw [List.map_cons, List.cons_append, runProgram_feed_cons hne, feedChunk_of_not_hdrLead hnotlead, store_of_fits hd,
      ih (fun e he => hcs e (List.mem_cons_of_mem d he)) hfits, List.flatten_cons, List.append_assoc]
    cases runProgram P ls sel ppm ⟨r.buf ++ (d ++ cs.flatten), r.ovf⟩ <;> rfl

theorem ne_nil_of_hdrLead {c : Bytes} (h : hdrLead c = true) : c ≠ [] := by
  rintro rfl
  cases h

/-- Settles O22: the first chunk replaces an empty buffer, the others are appended (`runProgram_feed_fragments`), and
the next header-leading chunk emits all of it. -/
theorem fragmentationDoesNotMatter : Obligations.FragmentationDoesNotMatter := by
  intro P sel ppm c h cs r hempty hlead hcs hfits hleadh
  have hc : (emptyRsm.buf ++ c).length ≤ P.raw.bufCap := by
    rw [List.length_append] at hfits
    simp only [emptyRsm_buf, List.nil_append]
    omega
  have hne : c ++ cs.flatten ≠ [] := List.append_ne_nil_of_left_ne_nil (ne_nil_of_hdrLead hlead) _
  have hsilent : pendingEvents P.raw (selectCo2f sel ppm) r = [] := by rw [pendingEvents_eq, if_pos hempty]
  have hrun : ∀ ls, runProgram P.raw ((c :: cs).map feedLine ++ ls) sel ppm r =
      afterEvents [] (runProgram P.raw ls sel ppm ⟨c ++ cs.flatten, false⟩) := by
    intro ls
    rw [List.map_cons, List.cons_append, runProgram_feed_cons (ne_nil_of_hdrLead hlead), feedChunk_of_hdrLead hlead,
      store_of_fits hc, hsilent]
    exact congrArg (afterEvents []) (runProgram_feed_fragments hcs hfits ls sel ppm)
  constructor
  · have hall := hrun []
    rw [List.append_nil] at hall
    exact ⟨_, hall⟩
  · refine ⟨store P.raw.bufCap h emptyRsm, ?_⟩
    rw [List.map_append]
    refine (hrun [feedLine h]).trans ?_
    rw [runProgram_feed_cons (ne_nil_of_hdrLead hleadh), feedChunk_of_hdrLead hleadh, pendingEvents_of_ne_nil hne]
    rfl

end Sys2Proof.Proofs
end

section
/-! PROOFS. One step (30_encoding.md R77, 60_exceptions.md R231): what a beat's strobes do one after the other, what
every step keeps, and the events of a step. -/

namespace Sys2Proof.Proofs

open Sys2Proof.Machine

/-! ### The parts of a step -/

theorem step_of_no_inputs {s : State} (h : s.inputs = []) : step s = .next s.idle := by
  rw [step, h]

theorem step_of_inputs_cons {s : State} {b : Beat} {rest : List Beat} (h : s.inputs = b :: rest) :
    step s = runInstrs (instrsOfBeat b) (s.takeBeat b rest) := by
  rw [step, h]

/-- A beat of one strobe is one instruction. -/
theorem step_of_single {s : State} {b : Beat} {rest : List Beat} {i : Instr} (h : s.inputs = b :: rest)
    (hb : instrsOfBeat b = [i]) : step s = exec i (s.takeBeat b rest) := by
  rw [step_of_inputs_cons h, hb, runInstrs_one]

theorem runInstrs_append_of_next {is js : List Instr} {s u : State} (h : runInstrs is s = .next u) :
    runInstrs (is ++ js) s = runInstrs js u := by
  induction is generalizing s with
  | nil => cases h; rfl
  | cons i is ih =>
    rw [List.cons_append, runInstrs_cons]
    rw [runInstrs_cons] at h
    cases hi : exec i s with
    | next s' => rw [hi] at h; exact ih h
    | fault r => rw [hi] at h; cases h
    | refused r => rw [hi] at h; cases h

theorem runInstrs_append_eq_next {is js : List Instr} {s t : State} (h : runInstrs (is ++ js) s = .next t) :
    ∃ u, runInstrs is s = .next u ∧ runInstrs js u = .next t := by
  induction is generalizing s with
  | nil => exact ⟨s, rfl, h⟩
  | cons i is ih =>
    rw [List.cons_append, runInstrs_cons] at h
    rw [runInstrs_cons]
    cases hi : exec i s with
    | next s' => rw [hi] at h; exact ih h
    | fault r => rw [hi] at h; cases h
    | refused r => rw [hi] at h; cases h

/-- A run whose first instruction is refused is refused. -/
theorem runInstrs_of_refused {i : Instr} {is : List Instr} {s : State} {r : Refusal} (h : exec i s = .refused r) :
    runInstrs (i :: is) s = .refused r := by
  rw [runInstrs_cons, h]

@[simp] theorem emit_nil (s : State) : s.emit [] = s := by
  simp [State.emit]

/-- The receive side of a beat: CLEAR, FLUSH, the chunk byte (R231). -/
def receiveInstrs (b : Beat) : List Instr :=
  (if b.clear then [.clear] else []) ++ (if b.flush then [.flush] else []) ++
  (if b.rxValid then [.feed b.rxData b.rxLast] else [])

/-- The transmit side of a beat: ENCODE (R206). -/
def requestInstrs (b : Beat) : List Instr := if b.encReq then [.encode b.encOp b.encDev b.encArg] else []

theorem instrsOfBeat_eq (b : Beat) : instrsOfBeat b = receiveInstrs b ++ requestInstrs b := rfl

/-- The events of a beat's request. -/
def requestEvents (P : RawParams) (b : Beat) : List Event :=
  if b.encReq then [encodeEvent P b.encOp b.encDev b.encArg] else []

theorem runInstrs_requestInstrs (b : Beat) (s : State) :
    runInstrs (requestInstrs b) s = .next (s.emit (requestEvents s.par.raw b)) := by
  unfold requestInstrs requestEvents
  split
  · rw [runInstrs_one, exec_encode]
  · rw [runInstrs_nil, emit_nil]

/-! ### The receive side between chunks -/

/-- The strobe CLEAR, asserted or not (R125). -/
def clearStrobe (on : Bool) (s : State) : State := s.setRsm (if on then emptyRsm else s.rsm)

/-- The strobe FLUSH, asserted or not (R124). -/
def flushStrobe (on : Bool) (s : State) : State :=
  (s.emit (if on then pendingEvents s.par.raw s.co2f s.rsm else [])).setRsm (if on then emptyRsm else s.rsm)

/-- A chunk's first byte, where the beat carries one (R132). -/
def firstByte (b : Beat) (s : State) : State := { s with
  rsm := if b.rxValid = true ∧ b.rxLast = true then append s.par.raw.bufCap b.rxData s.rsm else s.rsm
  cpos := if b.rxValid = true ∧ b.rxLast = false then .one else .between
  hold := if b.rxValid = true ∧ b.rxLast = false then b.rxData else s.hold }

theorem runInstrs_clearStrobe {s : State} (hpos : s.cpos = .between) (on : Bool) :
    runInstrs (if on then [.clear] else []) s = .next (clearStrobe on s) := by
  cases on with
  | false => rfl
  | true => exact (runInstrs_one _ s).trans (betweenChunks_of_between hpos _)

theorem runInstrs_flushStrobe {s : State} (hpos : s.cpos = .between) (on : Bool) :
    runInstrs (if on then [.flush] else []) s = .next (flushStrobe on s) := by
  cases on with
  | false => exact congrArg _ (emit_nil s).symm
  | true => exact (runInstrs_one _ s).trans (betweenChunks_of_between hpos _)

theorem runInstrs_firstByte {s : State} (hpos : s.cpos = .between) (b : Beat) :
    runInstrs (if b.rxValid then [.feed b.rxData b.rxLast] else []) s = .next (firstByte b s) := by
  cases hvalid : b.rxValid with
  | false => simp [firstByte, hvalid, ← hpos]
  | true =>
    rw [if_pos rfl, runInstrs_one, exec_feed, execFeed_of_between hpos]
    cases hlast : b.rxLast with
    | false => simp [firstByte, hvalid, hlast, State.setHold, State.setCpos]
    | true => simp [firstByte, hvalid, hlast, State.append, State.setRsm, ← hpos]

/-- Between chunks CLEAR, FLUSH and the byte take effect in this order, and none is refused (R231). -/
theorem runInstrs_receiveInstrs_of_between {s : State} (hpos : s.cpos = .between) (b : Beat) :
    runInstrs (receiveInstrs b) s = .next (firstByte b (flushStrobe b.flush (clearStrobe b.clear s))) := by
  have hclear := runInstrs_clearStrobe hpos b.clear
  have hflush := runInstrs_flushStrobe (s := clearStrobe b.clear s) hpos b.flush
  have hbyte := runInstrs_firstByte (s := flushStrobe b.flush (clearStrobe b.clear s)) hpos b
  rw [receiveInstrs, runInstrs_append_of_next ((runInstrs_append_of_next hclear).trans hflush), hbyte]

/-! ### The receive side inside a chunk -/

/-- R262: a CLEAR or FLUSH strobe inside a chunk refuses the whole beat. -/
theorem runInstrs_receiveInstrs_refused {s : State} (hpos : s.cpos ≠ .between) {b : Beat}
    (hstrobe : b.clear = true ∨ b.flush = true) (js : List Instr) :
    runInstrs (receiveInstrs b ++ js) s = .refused .strobeInsideChunk := by
  unfold receiveInstrs
  by_cases hclear : b.clear = true
  · rw [if_pos hclear]
    exact runInstrs_of_refused ((exec_clear s).trans (betweenChunks_of_ne hpos _))
  · rw [if_neg hclear, if_pos (hstrobe.resolve_left hclear)]
    exact runInstrs_of_refused ((exec_flush s).trans (betweenChunks_of_ne hpos _))

/-- Inside a chunk a beat that is not refused is its byte, or nothing on the receive side. -/
theorem runInstrs_receiveInstrs_inside {s u : State} (hpos : s.cpos ≠ .between) {b : Beat}
    (h : runInstrs (receiveInstrs b) s = .next u) : u = s ∨ execFeed b.rxData b.rxLast s = .next u := by
  by_cases hstrobe : b.clear = true ∨ b.flush = true
  · have hrefused := runInstrs_receiveInstrs_refused hpos hstrobe []
    rw [List.append_nil, h] at hrefused
    cases hrefused
  · push Not at hstrobe
    unfold receiveInstrs at h
    rw [if_neg hstrobe.1, if_neg hstrobe.2] at h
    split at h
    · exact .inr ((runInstrs_one _ s).symm.trans h)
    · exact .inl (Host.Outcome.next.inj h).symm

/-- In every beat the receive side emits what was buffered before the beat, or nothing (R33). -/
theorem receiveInstrs_out {s u : State} {b : Beat} (h : runInstrs (receiveInstrs b) s = .next u) :
    ∃ r, (r = emptyRsm ∨ r = s.rsm) ∧ u.out = s.out ++ pendingEvents s.par.raw s.co2f r := by
  by_cases hpos : s.cpos = .between
  · rw [runInstrs_receiveInstrs_of_between hpos] at h
    cases h
    refine ⟨if b.flush then (clearStrobe b.clear s).rsm else emptyRsm, ?_, ?_⟩
    · cases b.flush <;> cases b.clear
      · exact .inl rfl
      · exact .inl rfl
      · exact .inr rfl
      · exact .inl rfl
    · cases b.flush <;> rfl
  · obtain rfl | hfeed := runInstrs_receiveInstrs_inside hpos h
    · exact ⟨emptyRsm, .inl rfl, by simp⟩
    · exact execFeed_out hfeed

/-! ### What every step keeps -/

/-- No instruction writes the parameters. -/
theorem exec_par {i : Instr} {s t : State} (h : exec i s = .next t) : t.par = s.par := by
  obtain ⟨-, rfl⟩ | ⟨-, rfl⟩ | ⟨b, l, hfeed⟩ | ⟨e, rfl⟩ := exec_eq_next_cases h
  · rfl
  · rfl
  · exact (execFeed_frame hfeed).2.1
  · rfl

/-- The invariant speaks of the buffer, the chunk position and the parameters. -/
theorem inv_of_eq {s t : State} (h : s.Inv) (hrsm : t.rsm = s.rsm) (hpos : t.cpos = s.cpos) (hpar : t.par = s.par) :
    t.Inv := by
  unfold State.Inv
  rw [hrsm, hpos, hpar]
  exact h

/-- Between chunks the invariant is the form of the buffer. -/
theorem inv_of_wf {s : State} (hwf : s.rsm.wf s.par.raw.bufCap = true) (hpos : s.cpos ≠ .more) : s.Inv :=
  ⟨hwf, fun h => absurd h hpos⟩

/-- FEED keeps the invariant: APPEND keeps the buffer's form, and the position moves to `more` only with the chunk's
first two bytes stored, or stays there. -/
theorem execFeed_inv {s t : State} {b : Byte} {l : Bool} (hs : s.Inv) (h : execFeed b l s = .next t) : t.Inv := by
  obtain ⟨hwf, hmore⟩ := hs
  obtain ⟨hpos, -, e⟩ | ⟨hpos, -, e⟩ | ⟨hpos, e⟩ | ⟨hpos, e⟩ := execFeed_cases b l s
  all_goals cases e.symm.trans h
  · exact inv_of_wf (append_wf b hwf) (by rw [State.append_cpos, hpos]; decide)
  · exact inv_of_wf hwf (by rw [State.setCpos_cpos]; decide)
  · obtain ⟨-, hcap, -⟩ := s.par.bounds
    have hbase : (s.decideHeader b).rsm.wf s.par.raw.bufCap = true := by
      rw [decideHeader_rsm]
      split
      · exact emptyRsm_wf _
      · exact hwf
    simp only [State.Inv, State.setCpos_rsm, State.setCpos_par, State.append_rsm, State.append_par, decideHeader_par]
    exact ⟨append_wf b (append_wf _ hbase), fun _ => two_le_length_append_append (by omega) _ b _⟩
  · exact ⟨append_wf b hwf, fun _ => (hmore hpos).trans (append_length_ge _ b s.rsm)⟩

theorem exec_inv {i : Instr} {s t : State} (hs : s.Inv) (h : exec i s = .next t) : t.Inv := by
  obtain ⟨hpos, rfl⟩ | ⟨hpos, rfl⟩ | ⟨b, l, hfeed⟩ | ⟨e, rfl⟩ := exec_eq_next_cases h
  · exact inv_of_wf (emptyRsm_wf _) (by rw [State.setRsm_cpos, hpos]; decide)
  · exact inv_of_wf (emptyRsm_wf _) (by rw [State.flushPending_cpos, hpos]; decide)
  · exact execFeed_inv hs hfeed
  · exact inv_of_eq hs rfl rfl rfl

/-- Settles O18: every instruction keeps the invariant (`exec_inv`), and taking a beat does not touch what it speaks
of. -/
theorem everyStepKeepsTheBufferInvariant : Obligations.EveryStepKeepsTheBufferInvariant :=
  fun _ _ => step_keeps (fun _ _ _ => exec_inv) (fun _ h => inv_of_eq h rfl rfl rfl)
    (fun _ _ _ h => inv_of_eq h rfl rfl rfl)

/-- Settles O19. -/
theorem resetHasTheBufferInvariant : Obligations.ResetHasTheBufferInvariant :=
  inv_of_wf reset_rsm_wf (by rw [State.reset_cpos]; decide)

/-- Settles O20: the fields of both resets. -/
theorem resetEmptiesTheBlock : Obligations.ResetEmptiesTheBlock :=
  ⟨⟨State.reset_rsm, State.reset_cpos, State.reset_out⟩,
    fun s => ⟨s.resetNow_rsm, s.resetNow_cpos, s.resetNow_out⟩⟩

/-- Settles O17. -/
theorem noStepWritesTheParameters : Obligations.NoStepWritesTheParameters :=
  fun s _ => step_keeps (p := fun u => u.par = s.par) (fun _ _ _ hs h => (exec_par h).trans hs) (fun _ h => h)
    (fun _ _ _ h => h) rfl

/-! ### A step as a whole -/

/-- Everything a step with a beat can do: the receive side, then the request's event. -/
theorem step_eq_next {s t : State} {b : Beat} {rest : List Beat} (hin : s.inputs = b :: rest) (h : step s = .next t) :
    ∃ u, runInstrs (receiveInstrs b) (s.takeBeat b rest) = .next u ∧ t = u.emit (requestEvents s.par.raw b) := by
  rw [step_of_inputs_cons hin, instrsOfBeat_eq] at h
  obtain ⟨u, hreceive, hrequest⟩ := runInstrs_append_eq_next h
  have hpar : u.par = s.par := runInstrs_keeps (p := fun u => u.par = s.par) (receiveInstrs b)
    (fun _ _ _ _ hs hi => (exec_par hi).trans hs) (s.takeBeat_par b rest) hreceive
  rw [runInstrs_requestInstrs, hpar] at hrequest
  cases hrequest
  exact ⟨u, hreceive, rfl⟩

/-- The events of a step with a beat: an emission's, of what was buffered or of nothing, then the request's. -/
theorem step_out {s t : State} {b : Beat} {rest : List Beat} (hin : s.inputs = b :: rest) (h : step s = .next t) :
    ∃ r, (r = emptyRsm ∨ r = s.rsm) ∧
      t.out = pendingEvents s.par.raw (selectCo2f b.co2fSel b.co2fPpm) r ++ requestEvents s.par.raw b := by
  obtain ⟨u, hreceive, rfl⟩ := step_eq_next hin h
  obtain ⟨r, hr, hout⟩ := receiveInstrs_out hreceive
  exact ⟨r, hr, by rw [State.emit_out, hout]; rfl⟩

/-- A step without a beat has no events. -/
theorem step_out_of_no_inputs {s t : State} (hin : s.inputs = []) (h : step s = .next t) : t.out = [] := by
  cases (step_of_no_inputs hin).symm.trans h
  rfl

/-- Settles O11. -/
theorem idleBeatChangesNothing : Obligations.IdleBeatChangesNothing := by
  refine fun s => ⟨step_of_no_inputs, fun b rest hin hclear hflush hbyte hreq => ?_⟩
  have hnone : instrsOfBeat b = [] := by simp [instrsOfBeat, hclear, hflush, hbyte, hreq]
  rw [step_of_inputs_cons hin, hnone]
  rfl

/-- Settles O12: between chunks by the three strobes in their order, inside a chunk by the refusal of the first of
them. -/
theorem strobesOfOneBeatTakeEffectInOrder : Obligations.StrobesOfOneBeatTakeEffectInOrder := by
  refine fun s b rest hin => ⟨fun hpos => ?_, fun hpos hstrobe => ?_⟩
  · intro r1 fr r2
    have hreceive := runInstrs_receiveInstrs_of_between (s := s.takeBeat b rest) hpos b
    rw [step_of_inputs_cons hin, instrsOfBeat_eq, runInstrs_append_of_next hreceive, runInstrs_requestInstrs]
    have hfr : fr = if b.flush then pendingEvents s.par.raw (selectCo2f b.co2fSel b.co2fPpm) r1 else [] := by
      cases hflush : b.flush
      · simp [fr, hflush]
      · simp only [fr, hflush, if_true, true_and, pendingEvents_eq, ite_not]
        rfl
    rw [hfr]
    rfl
  · rw [step_of_inputs_cons hin, instrsOfBeat_eq]
    exact runInstrs_receiveInstrs_refused (s := s.takeBeat b rest) hpos hstrobe _

/-- Settles O13: the request's event is put behind the events of the receive side, which runs the same without it. -/
theorem encodeIsIndependentOfTheReceiveSide : Obligations.EncodeIsIndependentOfTheReceiveSide := by
  intro s t s' t' b b' rest rest' hin hin' hreq hreq' h h'
  obtain ⟨u, hreceive, rfl⟩ := step_eq_next hin h
  obtain ⟨u', -, rfl⟩ := step_eq_next hin' h'
  have hevents : requestEvents s.par.raw b = [encodeEvent s.par.raw b.encOp b.encDev b.encArg] := if_pos hreq
  have hevents' : requestEvents s'.par.raw b' = [encodeEvent s'.par.raw b'.encOp b'.encDev b'.encArg] := if_pos hreq'
  rw [hevents, hevents']
  refine ⟨fun hpar hop hdev harg => ?_, ?_⟩
  · simp [hpar, hop, hdev, harg]
  · have hquiet : requestInstrs { b with encReq := false } = [] := rfl
    rw [step_of_inputs_cons rfl, instrsOfBeat_eq, hquiet, List.append_nil, State.emit_out, List.dropLast_concat]
    exact hreceive

/-! ### Reports, port words and command kinds presented to the step -/

/-- What `decodePort` accepts is the one instruction of the beat the word presents. -/
theorem instrsOfBeat_of_decodePort {f : Bytes} {i : Instr} (h : decodePort f = .ok i) :
    instrsOfBeat (beatOfPortWord false 0#32 f) = [i] := by
  unfold decodePort at h
  split at h
  · cases h
  · split at h
    · cases h
    · rename_i j hj
      cases h
      exact hj
    · cases h

/-- A beat's port word does not begin with the header, so it is read as a port word or not at all. -/
theorem decode_portWordOfBeat_eq_decodePort (P : RawParams) (b : Beat) :
    decode P (portWordOfBeat b) = decodePort (portWordOfBeat b) := by
  have hne : patternByte b.clear b.flush b.rxValid b.encReq ≠ 0xFF#8 := by
    cases b.clear <;> cases b.flush <;> cases b.rxValid <;> cases b.encReq <;> decide
  simp [decode, portWordOfBeat, portWord, bytesOf32, hne, portWordLen]

/-- Settles O8. -/
theorem stepRunsTheDecodedPortInstruction : Obligations.StepRunsTheDecodedPortInstruction := by
  intro s b rest i hin hdec
  rw [decode_portWordOfBeat_eq_decodePort] at hdec
  have hone := instrsOfBeat_of_decodePort hdec
  rw [beatOfPortWord_portWordOfBeat] at hone
  exact step_of_single hin hone

theorem dispatch_deviceByte (v : Variant) : dispatch (deviceByte v) = some v := by
  cases v <;> rfl

/-- DECODE of a frame that does not overflow, by the checks before the dispatch, the dispatch and the device decoder
(R150). -/
theorem decodeFrame_of_dispatch {f : Bytes} {v : Variant} (hv : dispatch (byteAt f 3) = some v) (P : RawParams)
    (co2f : Nat) : decodeFrame P f false co2f =
      match precheck P f with
      | some k => .failure k
      | none => eventOf (deviceDecoder v P f co2f) := by
  simp only [decodeFrame, hv]
  cases v <;> rfl

/-- Settles O9: FLUSH emits the frame and its DECODE, which the frame's device byte sends to its own decoder. -/
theorem stepRunsTheBufferedReport : Obligations.StepRunsTheBufferedReport := by
  intro s b rest v body cks hin hb hpos hrsm
  have hne : reportBytes s.par.raw v body cks ≠ [] := by simp [reportBytes]
  have hdev : dispatch (byteAt (reportBytes s.par.raw v body cks) 3) = some v := dispatch_deviceByte v
  rw [encode_reportInstr] at hrsm
  have hflush := betweenChunks_of_between (s := s.takeBeat b rest) hpos (s.takeBeat b rest).flushPending
  rw [step_of_single hin hb, exec_flush, hflush, exec_reportInstr, decodeAs_eq,
    encode_reportInstr, State.flushPending, State.takeBeat_rsm, hrsm, pendingEvents_of_ne_nil hne,
    decodeFrame_of_dispatch hdev]
  rfl

/-- Settles O10: the word is the instruction's own encoding, so the decoder gives the instruction back, and the request
that stands for it is run by the next step. -/
theorem stepRunsThePresentedCommand : Obligations.StepRunsThePresentedCommand := by
  intro s i hwf hreq
  obtain ⟨⟨op, dev, arg⟩, hrequest⟩ := Option.ne_none_iff_exists'.mp hreq
  have hlen : (encode s.par.raw i).length = 10 := by
    cases i <;> cases hrequest <;> rfl
  have hbytes : tableBytes 80 (beNat (encode s.par.raw i)) = encode s.par.raw i := by
    have hframe := beBytes_beNat (encode s.par.raw i)
    rwa [hlen] at hframe
  have hdec := decode_encode_of_requestOf hwf hreq
  have hfetch : s.withFetchWord 80 (beNat (encode s.par.raw i)) =
      s.present (s.beatOf (encode s.par.raw (.encode op dev arg))) := by
    rw [State.withFetchWord, if_neg (by decide), hbytes, hdec]
    simp only [hrequest]
  have hone : instrsOfBeat (s.beatOf (encode s.par.raw (.encode op dev arg))) = [.encode op dev arg] :=
    instrsOfBeat_beatOfPortWord_encode (.encode op dev arg) s.par.raw s.co2fSel s.co2fPpm
  rw [hfetch, step_of_single (State.present_inputs s _) hone, exec_eq_exec_encode hrequest]
  rfl

/-! ### The shape of a step's events (R33) -/

theorem requestEvents_shape (P : RawParams) (b : Beat) : transmitShape (requestEvents P b) = true := by
  unfold requestEvents
  split
  · exact encodeEvent_shape ..
  · rfl

/-- Settles O14. -/
theorem everyStepEmitsAtMostOneFrameWithOneResult : Obligations.EveryStepEmitsAtMostOneFrameWithOneResult := by
  intro s t h
  cases hin : s.inputs with
  | nil => exact ⟨[], [], step_out_of_no_inputs hin h, rfl, rfl⟩
  | cons b rest =>
    obtain ⟨r, -, hout⟩ := step_out hin h
    exact ⟨_, _, hout, pendingEvents_shape .., requestEvents_shape ..⟩

/-! ### The output ports of a step (R31, R32) -/

/-- DECODE gives a READING or a failure of a frame, never the encoder's. -/
theorem decodeFrame_eq_reading_or_failure (P : RawParams) (f : Bytes) (ovf : Bool) (co2f : Nat) :
    (∃ r, decodeFrame P f ovf co2f = .reading r) ∨
    ∃ k, k ≠ .invalidOperation ∧ decodeFrame P f ovf co2f = .failure k := by
  have hresult := decodeFrame_isResult P f ovf co2f
  cases he : decodeFrame P f ovf co2f with
  | reading r => exact .inl ⟨r, rfl⟩
  | failure k =>
    refine .inr ⟨k, ?_, rfl⟩
    rintro rfl
    rw [he] at hresult
    obtain hr | hf := hresult
    · cases hr
    · cases hf
  | frame _ _ | encoded _ =>
    rw [he] at hresult
    obtain hr | hf := hresult
    · cases hr
    · cases hf

/-- ENCODE gives a frame or InvalidOperation (R190, R193). -/
theorem encodeEvent_eq_encoded_or_failure (P : RawParams) (op : BitVec 4) (dev : Byte) (arg : Word32) :
    (∃ f, encodeEvent P op dev arg = .encoded f) ∨ encodeEvent P op dev arg = .failure .invalidOperation := by
  unfold encodeEvent
  split
  · exact .inr rfl
  · rename_i o _
    obtain ⟨-, h⟩ | ⟨-, h⟩ := commandEvent_cases P o dev arg
    · exact .inr h
    · exact .inl ⟨_, h⟩

/-- The request of a beat on the event list: none, answered, or failed. -/
theorem requestEvents_cases (P : RawParams) (b : Beat) :
    (b.encReq = false ∧ requestEvents P b = []) ∨
    (b.encReq = true ∧ ∃ f, requestEvents P b = [.encoded f]) ∨
    (b.encReq = true ∧ requestEvents P b = [.failure .invalidOperation]) := by
  cases hreq : b.encReq with
  | false => exact .inl ⟨rfl, if_neg (by simp [hreq])⟩
  | true =>
    have hevents : requestEvents P b = [encodeEvent P b.encOp b.encDev b.encArg] := if_pos hreq
    rw [hevents]
    obtain ⟨f, h⟩ | h := encodeEvent_eq_encoded_or_failure P b.encOp b.encDev b.encArg
    · exact .inr (.inl ⟨rfl, f, by rw [h]⟩)
    · exact .inr (.inr ⟨rfl, by rw [h]⟩)

theorem outputPorts_concat (evs : List Event) (e : Event) :
    outputPorts (evs ++ [e]) = drivePort (outputPorts evs) e := by
  simp [outputPorts]

theorem outputPorts_frame_failure (f : Bytes) (ovf : Bool) {k : FailureKind} (hk : k ≠ .invalidOperation) :
    outputPorts [.frame f ovf, .failure k] = { quietPorts with
      frm := some ⟨f.length, f, ovf⟩, errValid := true, errCode := some (errCode (some k)) } :=
  drivePort_decodeFailure _ hk

/-- What the output ports show of an emission's events, before any request. -/
structure ReceivePorts (evs : List Event) (p : OutputPorts) : Prop where
  frm_iff : p.frm.isSome = true ↔ (p.rd.isSome = true ∨ p.errValid = true)
  rd_xor_err : ¬ (p.rd.isSome = true ∧ p.errValid = true)
  enc_none : p.enc = none
  encErr_false : p.encErr = false
  code_none : p.errValid = false → p.errCode = none
  code_of_failure : p.errValid = true →
    ∃ k, k ≠ .invalidOperation ∧ .failure k ∈ evs ∧ p.errCode = some (errCode (some k))

theorem receivePorts_pendingEvents (P : RawParams) (co2f : Nat) (r : ReassemblyState) :
    ReceivePorts (pendingEvents P co2f r) (outputPorts (pendingEvents P co2f r)) := by
  by_cases hr : r.buf = []
  · rw [pendingEvents_eq, if_pos hr]
    constructor <;> simp [outputPorts, quietPorts]
  · rw [pendingEvents_of_ne_nil hr]
    obtain ⟨rd, he⟩ | ⟨k, hk, he⟩ := decodeFrame_eq_reading_or_failure P r.buf r.ovf co2f <;> rw [he]
    · constructor <;> simp [outputPorts, quietPorts, drivePort]
    · rw [outputPorts_frame_failure _ _ hk]
      constructor <;> simp [quietPorts, hk]

/-- The output ports of a step with a beat: those of an emission, and the request, if any, on its own two and
err_code. -/
theorem step_ports {s t : State} {b : Beat} {rest : List Beat} (hin : s.inputs = b :: rest) (h : step s = .next t) :
    ∃ evs q, ReceivePorts evs q ∧ (∀ e ∈ evs, e ∈ t.out) ∧
      ((b.encReq = false ∧ outputPorts t.out = q) ∨
        (b.encReq = true ∧ ∃ f, outputPorts t.out = { q with enc := some (encFrame f) }) ∨
        (b.encReq = true ∧
          outputPorts t.out = { q with encErr := true, errCode := some (showCode q.errCode 5#3) })) := by
  obtain ⟨r, -, hout⟩ := step_out hin h
  refine ⟨_, _, receivePorts_pendingEvents s.par.raw (selectCo2f b.co2fSel b.co2fPpm) r, ?_, ?_⟩
  · rw [hout]
    exact fun _ he => List.mem_append_left _ he
  · rw [hout]
    obtain ⟨hreq, hev⟩ | ⟨hreq, f, hev⟩ | ⟨hreq, hev⟩ := requestEvents_cases s.par.raw b <;> rw [hev]
    · exact .inl ⟨hreq, by rw [List.append_nil]⟩
    · exact .inr (.inl ⟨hreq, f, outputPorts_concat _ _⟩)
    · exact .inr (.inr ⟨hreq, outputPorts_concat _ _⟩)

/-- Settles O15: the receive ports pair up (`ReceivePorts`), and a request drives exactly one of its own two. -/
theorem validPortsPairUp : Obligations.ValidPortsPairUp := by
  intro s t b rest hin h p
  obtain ⟨evs, q, hrx, -, ⟨hreq, hp⟩ | ⟨hreq, f, hp⟩ | ⟨hreq, hp⟩⟩ := step_ports hin h
  · simp only [p, hp, hreq]
    exact ⟨hrx.frm_iff, hrx.rd_xor_err, by simp [hrx.enc_none, hrx.encErr_false], by simp [hrx.enc_none]⟩
  · simp only [p, hp, hreq]
    exact ⟨hrx.frm_iff, hrx.rd_xor_err, by simp, by simp [hrx.encErr_false]⟩
  · simp only [p, hp, hreq]
    exact ⟨hrx.frm_iff, hrx.rd_xor_err, by simp, by simp [hrx.enc_none]⟩

/-- The request does not touch the FRAME ports. -/
theorem outputPorts_append_requestEvents_frm (evs : List Event) (P : RawParams) (b : Beat) :
    (outputPorts (evs ++ requestEvents P b)).frm = (outputPorts evs).frm := by
  obtain ⟨-, hev⟩ | ⟨-, f, hev⟩ | ⟨-, hev⟩ := requestEvents_cases P b <;> rw [hev]
  · rw [List.append_nil]
  · rw [outputPorts_concat]; rfl
  · rw [outputPorts_concat]; rfl

/-- The FRAME ports of an emission show the buffer, which is not empty. -/
theorem outputPorts_pendingEvents_frm {P : RawParams} {co2f : Nat} {r : ReassemblyState} {fp : FramePort}
    (h : (outputPorts (pendingEvents P co2f r)).frm = some fp) : r.buf ≠ [] ∧ fp = ⟨r.buf.length, r.buf, r.ovf⟩ := by
  by_cases hr : r.buf = []
  · rw [pendingEvents_eq, if_pos hr] at h
    cases h
  · refine ⟨hr, ?_⟩
    rw [pendingEvents_of_ne_nil hr] at h
    obtain ⟨rd, he⟩ | ⟨k, hk, he⟩ := decodeFrame_eq_reading_or_failure P r.buf r.ovf co2f <;> rw [he] at h
    · exact (Option.some.inj h).symm
    · rw [outputPorts_frame_failure _ _ hk] at h
      exact (Option.some.inj h).symm

/-- Settles O16: the frame is the buffer before the step, whose length the invariant bounds. -/
theorem emittedLengthFitsItsPort : Obligations.EmittedLengthFitsItsPort := by
  intro s t fp hinv h hfrm
  cases hin : s.inputs with
  | nil =>
    rw [step_out_of_no_inputs hin h] at hfrm
    cases hfrm
  | cons b rest =>
    obtain ⟨r, hr, hout⟩ := step_out hin h
    rw [hout, outputPorts_append_requestEvents_frm] at hfrm
    obtain ⟨hne, rfl⟩ := outputPorts_pendingEvents_frm hfrm
    have hcap : r.buf.length ≤ s.par.raw.bufCap := by
      obtain rfl | rfl := hr
      · exact Nat.zero_le _
      · exact ((ReassemblyState.wf_iff _ _).mp hinv.1).1
    exact ⟨rfl, List.length_pos_iff.mpr hne, hcap, hcap.trans_lt Nat.lt_log2_self⟩

/-- Settles O59: the receive side shows its failure's code or none; a failing request shows 5 on a port without a code,
and one of the two on a port with one (`showCode_some`). -/
theorem errCodeShowsTheFailureOfTheStep : Obligations.ErrCodeShowsTheFailureOfTheStep := by
  intro s t h p
  cases hin : s.inputs with
  | nil =>
    have hp : p = quietPorts := by simp only [p, step_out_of_no_inputs hin h]; rfl
    rw [hp]
    simp [quietPorts]
  | cons b rest =>
    obtain ⟨evs, q, hrx, hsub, hports⟩ := step_ports hin h
    cases hv : q.errValid with
    | false =>
      have hcode := hrx.code_none hv
      obtain ⟨-, hp⟩ | ⟨-, f, hp⟩ | ⟨-, hp⟩ := hports <;>
        simp [p, hp, hv, hcode, hrx.encErr_false]
    | true =>
      obtain ⟨k, hk, hmem, hcode⟩ := hrx.code_of_failure hv
      have hshown : ∃ k, k ≠ .invalidOperation ∧ .failure k ∈ t.out ∧ q.errCode = some (errCode (some k)) :=
        ⟨k, hk, hsub _ hmem, hcode⟩
      have hboth : ∃ k, k ≠ .invalidOperation ∧ .failure k ∈ t.out ∧
          (showCode q.errCode 5#3 = errCode (some k) ∨ showCode q.errCode 5#3 = 5#3) :=
        ⟨k, hk, hsub _ hmem, by rw [hcode]; exact showCode_some _ _⟩
      obtain ⟨-, hp⟩ | ⟨-, f, hp⟩ | ⟨-, hp⟩ := hports
      · simpa [p, hp, hv, hcode, hrx.encErr_false] using hshown
      · simpa [p, hp, hv, hcode, hrx.encErr_false] using hshown
      · simpa [p, hp, hv] using hboth

end Sys2Proof.Proofs
end

section
/-! PROOFS. The two levels of the reassembler (10_state.md R33, 41_reassembler.md R133): a host program presented beat
by beat against the transaction machine. -/

namespace Sys2Proof.Proofs

open Sys2Proof.Machine

/-! ### Runs of several steps -/

theorem trace_one {s t : State} (h : step s = .next t) : trace 1 s = some (t, t.out) := by
  simp [trace, h]

theorem trace_succ {n : Nat} {s t u : State} {evs : List Event} (h : step s = .next t)
    (ht : trace n t = some (u, evs)) : trace (n + 1) s = some (u, t.out ++ evs) := by
  simp [trace, h, ht]

theorem trace_add {m n : Nat} {s t u : State} {evs evs' : List Event} (hm : trace m s = some (t, evs))
    (hn : trace n t = some (u, evs')) : trace (m + n) s = some (u, evs ++ evs') := by
  induction m generalizing s evs with
  | zero =>
    cases hm
    rw [Nat.zero_add]
    exact hn
  | succ m ih =>
    cases hstep : step s with
    | next s' =>
      rw [trace, hstep] at hm
      obtain ⟨⟨t', evs1⟩, hrest, heq⟩ := Option.map_eq_some_iff.mp hm
      cases heq
      rw [Nat.add_right_comm, trace_succ hstep (ih hrest), List.append_assoc]
    | fault r => rw [trace, hstep] at hm; cases hm
    | refused r => rw [trace, hstep] at hm; cases hm

/-! ### The state between two operations -/

/-- Between chunks, with the given beats to come, reassembly state and parameters: what the transaction machine knows of
a state, and what it does not write. -/
structure Stands (s : State) (beats : List Beat) (r : ReassemblyState) (par : Params) : Prop where
  cpos : s.cpos = .between
  inputs : s.inputs = beats
  rsm : s.rsm = r
  par : s.par = par

/-- The beat that presents a port instruction under the given configuration inputs. -/
abbrev beatOfInstr (P : RawParams) (sel : Bool) (ppm : Word32) (i : Instr) : Beat :=
  beatOfPortWord sel ppm (encode P i)

theorem step_of_beatOfInstr {s : State} {P : RawParams} {sel : Bool} {ppm : Word32} {i : Instr} {rest : List Beat}
    (hi : IsPortInstr i) (hin : s.inputs = beatOfInstr P sel ppm i :: rest) :
    step s = exec i (s.takeBeat (beatOfInstr P sel ppm i) rest) :=
  step_of_single hin (instrsOfBeat_beatOfPortWord_encode hi P sel ppm)

/-! ### FEED of a chunk, beat by beat -/

theorem feedInstrs_cons (b : Byte) (c : Bytes) : feedInstrs (b :: c) = .feed b c.isEmpty :: feedInstrs c := by
  cases c <;> rfl

@[simp] theorem feedInstrs_length (c : Bytes) : (feedInstrs c).length = c.length := by
  induction c with
  | nil => rfl
  | cons b c ih => rw [feedInstrs_cons, List.length_cons, List.length_cons, ih]

/-- After the first two bytes of a chunk the beats of the others append them, and the last returns between chunks. -/
theorem trace_feedInstrs_tail (P : RawParams) (sel : Bool) (ppm : Word32) (c : Bytes) {s : State} {rest : List Beat}
    (hpos : s.cpos = afterByte c.isEmpty) (hin : s.inputs = (feedInstrs c).map (beatOfInstr P sel ppm) ++ rest) :
    ∃ t, trace c.length s = some (t, []) ∧ Stands t rest (store s.par.raw.bufCap c s.rsm) s.par := by
  induction c generalizing s with
  | nil => exact ⟨s, rfl, hpos, hin, (store_nil _ _).symm, rfl⟩
  | cons b c ih =>
    rw [feedInstrs_cons, List.map_cons, List.cons_append] at hin
    have hstep := (step_of_beatOfInstr (.feed b c.isEmpty) hin).trans
      (execFeed_of_more (s := s.takeBeat _ _) hpos b c.isEmpty)
    obtain ⟨t, htrace, ht⟩ := ih (s := ((s.takeBeat _ _).append b).setCpos (afterByte c.isEmpty)) rfl rfl
    refine ⟨t, trace_succ hstep htrace, ?_⟩
    rw [store_cons]
    exact ht

/-- From a chunk's second byte on: the header decision falls on it with the first byte held, then both are appended. -/
theorem trace_feedInstrs_second (P : RawParams) (sel : Bool) (ppm : Word32) (b : Byte) (c : Bytes) {s : State}
    {rest : List Beat} (hpos : s.cpos = .one)
    (hin : s.inputs = (feedInstrs (b :: c)).map (beatOfInstr P sel ppm) ++ rest) :
    ∃ t, trace (b :: c).length s = some (t, pendingEvents s.par.raw (selectCo2f sel ppm)
        (if s.hold = hdr0 ∧ b = hdr1 then s.rsm else emptyRsm)) ∧
      Stands t rest (store s.par.raw.bufCap c (append s.par.raw.bufCap b (append s.par.raw.bufCap s.hold
        (if s.hold = hdr0 ∧ b = hdr1 then emptyRsm else s.rsm)))) s.par := by
  rw [feedInstrs_cons, List.map_cons, List.cons_append] at hin
  have hstep := (step_of_beatOfInstr (.feed b c.isEmpty) hin).trans
    (execFeed_of_one (s := s.takeBeat _ _) hpos b c.isEmpty)
  obtain ⟨hpar, hinputs, -⟩ := decideHeader_frame (s.takeBeat (beatOfInstr P sel ppm (.feed b c.isEmpty))
    ((feedInstrs c).map (beatOfInstr P sel ppm) ++ rest)) b
  obtain ⟨t, htail, ht⟩ := trace_feedInstrs_tail P sel ppm c
    (s := State.setCpos (State.append (State.append _ s.hold) b) (afterByte c.isEmpty)) rfl hinputs
  refine ⟨t, (trace_succ hstep htail).trans ?_, ?_⟩
  · rw [List.append_nil, State.setCpos_out, State.append_out, State.append_out, decideHeader_out]
    rfl
  · simp only [State.setCpos_rsm, State.setCpos_par, State.append_rsm, State.append_par, hpar, decideHeader_rsm] at ht
    exact ht

/-- FEED of a chunk of two bytes or more, its header decision and its first two bytes written out. -/
theorem feedChunk_cons_cons (P : RawParams) (co2f : Nat) (b0 b1 : Byte) (c : Bytes) (r : ReassemblyState) :
    feedChunk P co2f (b0 :: b1 :: c) r =
      (store P.bufCap c (append P.bufCap b1 (append P.bufCap b0 (if b0 = hdr0 ∧ b1 = hdr1 then emptyRsm else r))),
        pendingEvents P co2f (if b0 = hdr0 ∧ b1 = hdr1 then r else emptyRsm)) := by
  by_cases hlead : b0 = hdr0 ∧ b1 = hdr1
  · rw [feedChunk_of_hdrLead ((hdrLead_cons_cons ..).mpr hlead), store_cons, store_cons, if_pos hlead, if_pos hlead]
  · rw [feedChunk_of_not_hdrLead (mt (hdrLead_cons_cons ..).mp hlead), store_cons, store_cons, if_neg hlead,
      if_neg hlead, pendingEvents_emptyRsm]

/-- FEED of a chunk, presented beat by beat, is the transaction FEED (R133): the header decision falls on the second
byte with the first one held, and STORE is APPEND of the bytes in turn. -/
theorem trace_feedInstrs (P : RawParams) (sel : Bool) (ppm : Word32) {c : Bytes} (hc : c ≠ []) {s : State}
    {rest : List Beat} (hpos : s.cpos = .between)
    (hin : s.inputs = (feedInstrs c).map (beatOfInstr P sel ppm) ++ rest) :
    ∃ t, trace c.length s = some (t, (feedChunk s.par.raw (selectCo2f sel ppm) c s.rsm).2) ∧
      Stands t rest (feedChunk s.par.raw (selectCo2f sel ppm) c s.rsm).1 s.par := by
  match c with
  | [] => exact absurd rfl hc
  | [b] =>
    have hstep := (step_of_beatOfInstr (.feed b true) hin).trans
      (execFeed_of_between (s := s.takeBeat _ _) hpos b true)
    refine ⟨_, trace_one hstep, hpos, rfl, ?_, rfl⟩
    rw [feedChunk_of_not_hdrLead (by simp [hdrLead]), store_cons, store_nil]
    rfl
  | b0 :: b1 :: c =>
    rw [feedInstrs_cons, List.map_cons, List.cons_append] at hin
    have hstep := (step_of_beatOfInstr (.feed b0 false) hin).trans
      (execFeed_of_between (s := s.takeBeat _ _) hpos b0 false)
    obtain ⟨t, htrace, ht⟩ :=
      trace_feedInstrs_second P sel ppm b1 c (s := ((s.takeBeat _ _).setHold b0).setCpos .one) rfl rfl
    rw [feedChunk_cons_cons]
    exact ⟨t, trace_succ hstep htrace, ht⟩

/-! ### A host program -/

/-- One host operation, presented beat by beat, is its transaction. -/
theorem trace_portInstrs (P : Params) (sel : Bool) (ppm : Word32) {o : HostOp} (ho : o ≠ .feed []) {s : State}
    {rest : List Beat} {r : ReassemblyState}
    (hs : Stands s ((portInstrs o).map (beatOfInstr P.raw sel ppm) ++ rest) r P) :
    ∃ t r' evs, transact P.raw (selectCo2f sel ppm) o r = .next (r', evs) ∧
      trace (portInstrs o).length s = some (t, evs) ∧ Stands t rest r' P := by
  obtain ⟨hpos, hin, rfl, rfl⟩ := hs
  cases o with
  | feed c =>
    have hc : c ≠ [] := fun h => ho (congrArg HostOp.feed h)
    obtain ⟨t, htrace, ht⟩ := trace_feedInstrs s.par.raw sel ppm hc hpos hin
    exact ⟨t, _, _, transact_feed_of_ne_nil hc _ _ _, by rw [portInstrs, feedInstrs_length]; exact htrace, ht⟩
  | flush =>
    have hstep := (step_of_beatOfInstr .flush hin).trans (betweenChunks_of_between (s := s.takeBeat _ _) hpos _)
    exact ⟨_, _, _, rfl, trace_one hstep, hpos, rfl, rfl, rfl⟩
  | clear =>
    have hstep := (step_of_beatOfInstr .clear hin).trans (betweenChunks_of_between (s := s.takeBeat _ _) hpos _)
    exact ⟨_, _, _, rfl, trace_one hstep, hpos, rfl, rfl, rfl⟩
  | encode op dev arg =>
    have hstep := step_of_beatOfInstr (.encode op dev arg) hin
    rw [exec_encode] at hstep
    exact ⟨_, _, _, rfl, trace_one hstep, hpos, rfl, rfl, rfl⟩

/-- A program whose chunks are not empty, from any configuration inputs: the levels each line sets come with the beats
of the lines after it. -/
theorem trace_beatsOfProgram (P : Params) (prog : List ProgramLine) (hne : noEmptyChunk prog = true) (sel : Bool)
    (ppm : Word32) {s : State} {r : ReassemblyState} (hs : Stands s (beatsOfProgram P.raw prog sel ppm) r P) :
    ∃ t r' evs, runProgram P.raw prog sel ppm r = .next (r', evs) ∧
      trace (beatsOfProgram P.raw prog sel ppm).length s = some (t, evs) ∧ Stands t [] r' P := by
  induction prog generalizing sel ppm s r with
  | nil => exact ⟨s, r, [], rfl, rfl, hs⟩
  | cons l ls ih =>
    cases l with
    | co2fDefault => exact ih hne false ppm hs
    | co2fPpm w => exact ih hne true w hs
    | op o =>
      have ho : o ≠ .feed [] := by rintro rfl; cases hne
      have hls : noEmptyChunk ls = true := by
        cases o with
        | feed c =>
          cases c with
          | nil => cases hne
          | cons b c => exact hne
        | flush | clear | encode => exact hne
      obtain ⟨t, r1, evs, htransact, htrace, ht⟩ := trace_portInstrs P sel ppm ho hs
      obtain ⟨u, r2, evs', hrun, hrest, hu⟩ := ih hls sel ppm ht
      refine ⟨u, r2, evs ++ evs', ?_, ?_, hu⟩
      · rw [runProgram, htransact]
        simp only [hrun, afterEvents_next]
      · rw [beatsOfProgram, List.length_append, List.length_map]
        exact trace_add htrace hrest

/-- Settles O21: by induction on the program (`trace_beatsOfProgram`), each operation by its own beats. -/
theorem beatsRefineTransactions : Obligations.BeatsRefineTransactions := by
  intro s prog hne hpos hin
  obtain ⟨t, r, evs, hrun, htrace, ht⟩ :=
    trace_beatsOfProgram s.par prog hne s.co2fSel s.co2fPpm ⟨hpos, hin, rfl, rfl⟩
  exact ⟨t, r, evs, hrun, by rw [hin]; exact htrace, ht.rsm, ht.cpos, ht.inputs, ht.par⟩

end Sys2Proof.Proofs
end

section
/-! PROOFS. The primitive codecs (40_primitives.md): writing and reading back, clamping, rounding, the decimal and the
duration renderings. -/

namespace Sys2Proof.Proofs

open Sys2Proof.Machine

/-! ### Reading what was written (R11, R104) -/

theorem byteAt_congr {f g : Bytes} {i : Nat} (h : f[i]? = g[i]?) : byteAt f i = byteAt g i := by
  rw [byteAt, byteAt, List.getD_eq_getElem?_getD, List.getD_eq_getElem?_getD, h]

/-- A read depends on the bytes of its range only. -/
theorem memRead_congr {f g : Bytes} {off n : Nat} (h : ∀ i, off ≤ i → i < off + n → f[i]? = g[i]?) :
    memRead f off n = memRead g off n := by
  induction n with
  | zero => rfl
  | succ n ih =>
    rw [memRead, memRead, ih (fun i hlo hhi => h i hlo (by omega)), byteAt_congr (h (off + n) (by omega) (by omega))]

/-- A write leaves every byte outside its range. -/
theorem memWrite_getElem? (f : Bytes) (off n v : Nat) {i : Nat} (h : ¬ (off ≤ i ∧ i < off + n)) :
    (memWrite f off n v)[i]? = f[i]? := by
  induction n generalizing v with
  | zero => rfl
  | succ n ih =>
    have hne : off + n ≠ i := by omega
    rw [memWrite, List.getElem?_set_ne hne, ih _ (by omega)]

/-- The last byte of a write is the value's lowest. -/
theorem byteAt_memWrite_last {f : Bytes} {off n : Nat} (h : off + (n + 1) ≤ f.length) (v : Nat) :
    byteAt (memWrite f off (n + 1) v) (off + n) = BitVec.ofNat 8 v := by
  have hlen : off + n < (memWrite f off (n + 1) v).length := by
    rw [memWrite_length]
    omega
  rw [byteAt_of_lt hlen]
  exact List.getElem_set_self _

theorem memRead_memWrite {f : Bytes} {off n v : Nat} (hlen : off + n ≤ f.length) (hv : v < 256 ^ n) :
    memRead (memWrite f off n v) off n = v := by
  induction n generalizing v with
  | zero =>
    rw [pow_zero] at hv
    rw [memRead]
    omega
  | succ n ih =>
    have hlow : memRead (memWrite f off (n + 1) v) off n = memRead (memWrite f off n (v / 256)) off n :=
      memRead_congr (fun i _ hi => List.getElem?_set_ne (by omega))
    have hrest : v / 256 < 256 ^ n := by
      rw [pow_succ] at hv
      omega
    rw [memRead, hlow, ih (by omega) hrest, byteAt_memWrite_last hlen, BitVec.toNat_ofNat]
    omega

theorem u32be_put32be (v : Word32) : u32be (put32be v) 0 = v.toNat := by
  have hv := v.isLt
  simp only [u32be, put32be, bytesOf32, byteAt, List.getD_cons_zero, List.getD_cons_succ, byteOfWord_toNat]
  omega

/-- Settles O50. -/
theorem writtenValuesReadBack : Obligations.WrittenValuesReadBack :=
  ⟨fun f off n v hlen hv => ⟨memRead_memWrite hlen hv, fun _ hi => memWrite_getElem? f off n v hi⟩, u32be_put32be⟩

/-! ### Clamping and rounding (R105, R106) -/

theorem clamp_of_lt {x lo hi : Int} (h : x < lo) : clamp x lo hi = lo := if_pos h

theorem clamp_of_gt {x lo hi : Int} (hle : lo ≤ hi) (h : hi < x) : clamp x lo hi = hi := by
  rw [clamp_eq_max_min hle]
  omega

theorem clamp_of_mem {x lo hi : Int} (hlo : lo ≤ x) (hhi : x ≤ hi) : clamp x lo hi = x := by
  rw [clamp_eq_max_min (hlo.trans hhi)]
  omega

theorem clamp_mem {lo hi : Int} (h : lo ≤ hi) (x : Int) : lo ≤ clamp x lo hi ∧ clamp x lo hi ≤ hi := by
  rw [clamp_eq_max_min h]
  omega

theorem clamp_clamp {lo hi : Int} (h : lo ≤ hi) (x : Int) : clamp (clamp x lo hi) lo hi = clamp x lo hi :=
  clamp_of_mem (clamp_mem h x).1 (clamp_mem h x).2

/-- Settles O51. -/
theorem clampStaysInRangeAndIsMonotone : Obligations.ClampStaysInRangeAndIsMonotone := by
  refine fun x y lo hi h => ⟨clamp_of_lt, clamp_of_gt h, clamp_of_mem, clamp_mem h x, clamp_clamp h x, fun hxy => ?_⟩
  rw [clamp_eq_max_min h, clamp_eq_max_min h]
  omega

/-- Settles O52: the quotient plus one half is (2a + b) / 2b, whose floor is the division of naturals. -/
theorem roundHalfUpIsTheRationalRounding : Obligations.RoundHalfUpIsTheRationalRounding := by
  intro a b hb
  have hb' : (b : ℚ) ≠ 0 := by exact_mod_cast hb.ne'
  have hhalf : (a : ℚ) / b + 1 / 2 = ((2 * a + b : ℕ) : ℚ) / ((2 * b : ℕ) : ℚ) := by
    push_cast
    field_simp
  rw [hhalf, Rat.floor_natCast_div_natCast, roundHalfUp]
  push_cast
  rfl

/-! ### Decimal renderings (R110) -/

theorem digit_toNat {d : Nat} (h : d < 10) : (digit d).toNat = 0x30 + d := by
  rw [digit, BitVec.toNat_ofNat]
  omega

/-- The digits of a positive number, as Mathlib has them, most significant first. -/
theorem decDigits_eq {fuel n : Nat} (hpos : 0 < n) (hfuel : n < fuel) (acc : Bytes) :
    decDigits fuel n acc = ((Nat.digits 10 n).map digit).reverse ++ acc := by
  induction fuel generalizing n acc with
  | zero => omega
  | succ fuel ih =>
    rw [Nat.digits_def' (by decide) hpos, decDigits]
    split
    · rename_i hdiv
      simp [hdiv]
    · rename_i hdiv
      rw [ih (by omega) (by omega)]
      simp

theorem dec_zero : dec 0 = [0x30#8] := rfl

theorem dec_of_pos {n : Nat} (h : 0 < n) : dec n = ((Nat.digits 10 n).map digit).reverse := by
  rw [dec, decDigits_eq h (Nat.lt_succ_self n), List.append_nil]

/-- DEC gives ASCII digits. -/
theorem mem_dec_range {n : Nat} {b : Byte} (hb : b ∈ dec n) : 0x30 ≤ b.toNat ∧ b.toNat ≤ 0x39 := by
  obtain rfl | hpos := Nat.eq_zero_or_pos n
  · rw [dec_zero, List.mem_singleton] at hb
    subst hb
    decide
  · rw [dec_of_pos hpos, List.mem_reverse, List.mem_map] at hb
    obtain ⟨d, hd, rfl⟩ := hb
    have hlt := Nat.digits_lt_base (by decide) hd
    rw [digit_toNat hlt]
    omega

/-- Reading DEC's digits gives the number back. -/
theorem dec_value (n : Nat) : (dec n).foldl (fun a b => a * 10 + (b.toNat - 0x30)) 0 = n := by
  have key : ∀ ds : List Nat, (∀ d ∈ ds, d < 10) →
      (ds.map digit).foldr (fun b a => a * 10 + (b.toNat - 0x30)) 0 = Nat.ofDigits 10 ds := by
    intro ds
    induction ds with
    | nil => intro _; rfl
    | cons d ds ih =>
      intro hds
      rw [List.map_cons, List.foldr_cons, ih (fun e he => hds e (List.mem_cons_of_mem d he)),
        digit_toNat (hds d List.mem_cons_self), Nat.ofDigits_cons]
      omega
  obtain rfl | hpos := Nat.eq_zero_or_pos n
  · rfl
  · rw [dec_of_pos hpos, List.foldl_reverse, key _ (fun d hd => Nat.digits_lt_base (by decide) hd),
      Nat.ofDigits_digits]

/-- DEC of a positive number has no leading zero. -/
theorem dec_head?_ne {n : Nat} (hn : n ≠ 0) : (dec n).head? ≠ some 0x30#8 := by
  have hne : Nat.digits 10 n ≠ [] := Nat.digits_ne_nil_iff_ne_zero.mpr hn
  rw [dec_of_pos (Nat.pos_of_ne_zero hn), List.head?_reverse, List.getLast?_map,
    List.getLast?_eq_getLast_of_ne_nil hne, Option.map_some]
  intro h
  have hdigit := digit_toNat (Nat.digits_lt_base (by decide) (List.getLast_mem hne))
  have hlast : 0x30 + (Nat.digits 10 n).getLast hne = 0x30 :=
    hdigit.symm.trans (congrArg BitVec.toNat (Option.some.inj h))
  exact Nat.getLast_digit_ne_zero 10 hn (Nat.add_eq_left.mp hlast)

theorem decPad_length (n w : Nat) : (decPad n w).length = max w (dec n).length := by
  rw [decPad, List.length_append, List.length_replicate]
  omega

/-- Settles O53. -/
theorem decIsTheShortestDecimalRendering : Obligations.DecIsTheShortestDecimalRendering :=
  fun n w => ⟨fun _ hb => mem_dec_range hb, dec_value n, fun hn => by rw [hn, dec_zero], dec_head?_ne, rfl,
    decPad_length n w⟩

/-! ### The duration string and the backlight classes (R107, R108) -/

/-- DEC of a number below 10^k has at most k digits. -/
theorem dec_length_le {n k : Nat} (hk : 0 < k) (h : n < 10 ^ k) : (dec n).length ≤ k := by
  obtain rfl | hpos := Nat.eq_zero_or_pos n
  · exact hk
  · rw [dec_of_pos hpos, List.length_reverse, List.length_map]
    exact (Nat.digits_length_le_iff (by decide) n).mpr h

theorem fmtDur_length (h m s : Nat) :
    (fmtDur h m s).length = max 3 (dec h).length + max 2 (dec m).length + max 2 (dec s).length + 2 := by
  simp only [fmtDur, List.length_append, List.length_singleton, decPad_length]
  omega

/-- Settles O54: the three fields have at most 5, 3 and 3 digits, in the ordinary range 3, 2 and 2. -/
theorem durationStringHasItsLength : Obligations.DurationStringHasItsLength := by
  intro h m s hh hm hs
  refine ⟨rfl, fun hh' hm' hs' => ?_, ?_⟩
  · have h3 : (dec h).length ≤ 3 := dec_length_le (by decide) (by omega)
    have m2 : (dec m).length ≤ 2 := dec_length_le (by decide) (by omega)
    have s2 : (dec s).length ≤ 2 := dec_length_le (by decide) (by omega)
    rw [fmtDur_length]
    omega
  · have h5 : (dec h).length ≤ 5 := dec_length_le (by decide) (by omega)
    have m3 : (dec m).length ≤ 3 := dec_length_le (by decide) (by omega)
    have s3 : (dec s).length ≤ 3 := dec_length_le (by decide) (by omega)
    rw [fmtDur_length]
    omega

/-- Settles O55: the two tests of `classifyBl`, then the tables of codes and labels. -/
theorem backlightClassesAreTheThree : Obligations.BacklightClassesAreTheThree := by
  intro b
  refine ⟨?_, ?_, ?_, rfl, rfl, rfl, rfl⟩
  all_goals
    unfold classifyBl
    split
    · simp_all
    · split <;> simp_all

/-- Settles O49. -/
theorem failureCodesAreTheTable : Obligations.FailureCodesAreTheTable := ⟨rfl, rfl, rfl, rfl, rfl, rfl⟩

end Sys2Proof.Proofs
end

section
/-! PROOFS. The Command Encoder (44_command_encoder.md), the other statements: the requests of ENCODE, the reference
frames, and that an encoded frame validates as a command and as nothing else. -/

namespace Sys2Proof.Proofs

open Sys2Proof.Machine

/-! ### Requests (R78, R190 to R193) -/

/-- Settles O25: both sides are the one operation, and an operation of value mode ZERO does not look at the argument. -/
theorem encodeSelectsTheTenOperations : Obligations.EncodeSelectsTheTenOperations :=
  fun _ _ _ _ => ⟨rfl, rfl, rfl, rfl, rfl, rfl, rfl, rfl, rfl, rfl, rfl, rfl⟩

theorem valueOf_clampBl (arg : Word32) : valueOf .clampBl arg = BitVec.ofInt 32 (clamp arg.toInt 0 60) := rfl

theorem valueOf_clampPrice (arg : Word32) : valueOf .clampPrice arg = BitVec.ofInt 32 (clamp arg.toInt 1 999999) := rfl

/-- Settles O27: `exec_encode_of_isDevice`, with the clamps of the value modes written as maximum and minimum. -/
theorem encodeProducesTheAssembledFrame : Obligations.EncodeProducesTheAssembledFrame := by
  intro s op dev arg o hop hdev v
  have hv : valueOf (opcodeRom o (dev == 0x03#8)).2 arg = v := by
    simp only [v]
    cases (opcodeRom o (dev == 0x03#8)).2 with
    | zero => rfl
    | clampBl => rw [valueOf_clampBl, clamp_eq_max_min (by decide)]
    | clampPrice => rw [valueOf_clampPrice, clamp_eq_max_min (by decide)]
  exact exec_encode_of_isDevice hop rfl (congrArg BitVec.toNat hv) hdev s

theorem encOpOf_eq_none {op : BitVec 4} (h : 9 < op.toNat) : encOpOf op = none := by
  unfold encOpOf
  split
  case h_11 => rfl
  all_goals omega

/-- Settles O28: a device type that is none fails for every selector, a selector of 10 or more for every device type. -/
theorem encodeRejectsUnknownDevicesAndSelectors : Obligations.EncodeRejectsUnknownDevicesAndSelectors := by
  rintro s op dev arg (hdev | hop)
  · exact exec_encode_of_not_isDevice hdev op arg s
  · rw [exec_encode, encodeEvent, encOpOf_eq_none hop]
    rfl

/-- Settles O34: every frame is the one its command sends, and its checksum a row of CK_VECTORS. -/
theorem referenceFramesHoldForEveryChecksum : Obligations.ReferenceFramesHoldForEveryChecksum := by
  intro s cks sends
  have sent : ∀ {i : Instr} {dev opc v c : Byte},
      exec i s = .next (s.emit [.encoded (commandFrame s.par.raw dev opc 0#8 0#8 0#8 v)]) →
      ck s.par.raw.ck [0xFF#8, 0x55#8, 0x11#8, dev, opc, 0x00#8, 0x00#8, 0x00#8, v] = c →
      exec i s = sends dev opc v c := by
    intro i dev opc v c hexec hck
    rw [hexec, commandFrame_eq_of_ck hck]
    rfl
  obtain ⟨hwh, hah, hduration, hall, hbl, hprice, hsetup, henter, hplusUsb, hminusUsb, hplus, hminus⟩ :=
    checksumHasTheTwelveValues s.par.raw.ck
  have hac : isDevice 0x01#8 := .inl rfl
  have husb : isDevice 0x03#8 := .inr (.inr rfl)
  have hbacklight := (setBacklightTimeSendsTheClampedSeconds s 0x01#8 cks 1#32 _ (.inl rfl)).1 hac
  have hprice1 := ((setPriceSendsTheClampedPrice s 0x01#8 cks 0#32 _).2 (.inl rfl)).1 hac
  exact ⟨sent (exec_of_zeroMode (o := .resetWh) rfl rfl rfl hac s) hwh,
    sent (exec_of_zeroMode (o := .resetAh) rfl rfl rfl hac s) hah,
    sent (exec_of_zeroMode (o := .resetDuration) rfl rfl rfl hac s) hduration,
    sent (exec_of_zeroMode (o := .resetAll) rfl rfl rfl hac s) hall,
    sent hbacklight hbl, sent hprice1 hprice,
    sent (exec_of_zeroMode (o := .setup) rfl rfl rfl hac s) hsetup,
    sent (exec_of_zeroMode (o := .enter) rfl rfl rfl hac s) henter,
    sent (exec_of_zeroMode (o := .setPlus) rfl rfl rfl husb s) hplusUsb,
    sent (exec_of_zeroMode (o := .setMinus) rfl rfl rfl husb s) hminusUsb,
    sent (exec_of_zeroMode (o := .setPlus) rfl rfl rfl hac s) hplus,
    sent (exec_of_zeroMode (o := .setMinus) rfl rfl rfl hac s) hminus⟩

/-! ### Clamping before the request (R205) -/

/-- An operation sees its argument through its value mode only. -/
theorem runCommand_congr {o : EncOp} {mode : ValueMode} (hmode : ∀ b, (opcodeRom o b).2 = mode) {v w : Word32}
    (h : valueOf mode v = valueOf mode w) (s : State) (dev : Byte) : s.runCommand o dev v = s.runCommand o dev w := by
  simp only [State.runCommand, commandEvent, hmode, h]

/-- A clamp between bounds that are signed 32-bit numbers survives the port. -/
theorem clamp_toInt_ofInt_clamp {lo hi : Int} (hlo : 0 ≤ lo) (hle : lo ≤ hi) (hhi : hi < 2 ^ 31) (x : Int) :
    clamp (BitVec.ofInt 32 (clamp x lo hi)).toInt lo hi = clamp x lo hi := by
  obtain ⟨h1, h2⟩ := clamp_mem hle x
  have hint : (BitVec.ofInt 32 (clamp x lo hi)).toInt = clamp x lo hi := by
    rw [BitVec.toInt_ofInt]
    exact Int.bmod_eq_of_le (by omega) (by omega)
  rw [hint, clamp_clamp hle]

theorem exec_setPrice_clamp (dev cks : Byte) (v : Word32) (s : State) : exec (.setPrice dev v cks) s =
    exec (.setPrice dev (BitVec.ofInt 32 (clamp v.toInt 1 999999)) cks) s := by
  have hvalue : valueOf .clampPrice v = valueOf .clampPrice (BitVec.ofInt 32 (clamp v.toInt 1 999999)) := by
    rw [valueOf_clampPrice, valueOf_clampPrice, clamp_toInt_ofInt_clamp] <;> decide
  exact congrArg Host.Outcome.next (runCommand_congr (o := .setPrice) (fun _ => rfl) hvalue s dev)

theorem exec_setBacklightTime_clamp (dev cks : Byte) (v : Word32) (s : State) : exec (.setBacklightTime dev v cks) s =
    exec (.setBacklightTime dev (BitVec.ofInt 32 (clamp v.toInt 0 60)) cks) s := by
  have hvalue : valueOf .clampBl v = valueOf .clampBl (BitVec.ofInt 32 (clamp v.toInt 0 60)) := by
    rw [valueOf_clampBl, valueOf_clampBl, clamp_toInt_ofInt_clamp] <;> decide
  exact congrArg Host.Outcome.next (runCommand_congr (o := .setBacklightTime) (fun _ => rfl) hvalue s dev)

/-- Settles O37: the last two clauses, of which the others are the cases where the clamp is a bound. -/
theorem clampingTwiceIsClampingOnce : Obligations.ClampingTwiceIsClampingOnce := by
  intro s dev cks v
  have hprice := exec_setPrice_clamp dev cks v s
  have hbl := exec_setBacklightTime_clamp dev cks v s
  refine ⟨fun h => ?_, fun h => ?_, fun h => ?_, fun h => ?_, hprice, hbl⟩
  · rw [hprice, clamp_of_lt h]; rfl
  · rw [hprice, clamp_of_gt (by decide) h]; rfl
  · rw [hbl, clamp_of_lt h]; rfl
  · rw [hbl, clamp_of_gt (by decide) h]; rfl

/-! ### Encoded frames on the receive side (R82, R145, R194) -/

/-- A frame that ENCODE gives is a command frame with its computed checksum. -/
theorem eq_commandFrame_of_encodeEvent {P : RawParams} {op : BitVec 4} {dev : Byte} {arg : Word32} {f : Bytes}
    (h : encodeEvent P op dev arg = .encoded f) : ∃ opc b5 b6 b7 b8, f = commandFrame P dev opc b5 b6 b7 b8 := by
  unfold encodeEvent at h
  split at h
  · cases h
  · rename_i o _
    obtain ⟨-, hfail⟩ | ⟨-, hframe⟩ := commandEvent_cases P o dev arg
    · cases hfail.symm.trans h
    · cases hframe.symm.trans h
      exact ⟨_, _, _, _, _, assemble_eq ..⟩

/-- The checksum of a command frame is right, so its tag alone decides. -/
theorem validate_commandFrame (P : RawParams) (dev opc b5 b6 b7 b8 : Byte) (t : MsgType) :
    validate P (commandFrame P dev opc b5 b6 b7 b8) t =
      if cmdTag ≠ tagOf P t then some .unexpectedMessageType else none := by
  rw [validate, if_neg (fun h => h rfl)]
  rfl

theorem precheck_commandFrame (P : Params) (dev opc b5 b6 b7 b8 : Byte) :
    precheck P.raw (commandFrame P.raw dev opc b5 b6 b7 b8) = some .unexpectedMessageType := by
  obtain ⟨htag, -⟩ := P.bounds
  have hlen : ¬ (commandFrame P.raw dev opc b5 b6 b7 b8).length < minFrameLen := show ¬ 10 < 5 by decide
  have hhdr : ¬ (byteAt (commandFrame P.raw dev opc b5 b6 b7 b8) 0 ≠ hdr0 ∨
      byteAt (commandFrame P.raw dev opc b5 b6 b7 b8) 1 ≠ hdr1) := by
    rintro (h | h)
    · exact h rfl
    · exact h rfl
  rw [precheck, if_neg hlen, if_neg hhdr, validate_commandFrame]
  exact if_pos htag.symm

/-- Settles O35. -/
theorem encodedFramesValidateAsCommands : Obligations.EncodedFramesValidateAsCommands := by
  intro s t op dev arg f hexec hout
  rw [exec_encode] at hexec
  cases hexec
  obtain ⟨opc, b5, b6, b7, b8, rfl⟩ :=
    eq_commandFrame_of_encodeEvent (List.singleton_inj.mp (List.append_cancel_left hout))
  refine ⟨?_, rfl, rfl⟩
  rw [validate_commandFrame]
  exact if_neg (fun h => h rfl)

/-- Settles O36: the header and the checksum pass, and REPORT_TAG is not CMD_TAG. -/
theorem commandsFedBackAreUnexpected : Obligations.CommandsFedBackAreUnexpected := by
  intro P op dev arg f co2f h
  obtain ⟨opc, b5, b6, b7, b8, rfl⟩ := eq_commandFrame_of_encodeEvent h
  rw [decodeFrame, precheck_commandFrame]
  rfl

end Sys2Proof.Proofs
end

section
/-! PROOFS. The Validator and the Packet Decoder (42_checksum_validator.md, 43_packet_decoder.md): the order of the
checks, the three device decoders, and what their results can be. -/

namespace Sys2Proof.Proofs

open Sys2Proof.Machine

/-! ### Bytes of a frame -/

theorem byteAt_eq_iff {f : Bytes} {i : Nat} (h : i < f.length) (x : Byte) : byteAt f i = x ↔ f[i]? = some x := by
  rw [byteAt_of_lt h, List.getElem?_eq_getElem h, Option.some.injEq]

theorem byteAt_last_eq_iff {f : Bytes} (h : 0 < f.length) (x : Byte) :
    byteAt f (f.length - 1) = x ↔ f.getLast? = some x := by
  rw [byteAt_eq_iff (by omega), List.getLast?_eq_getElem?]

theorem ofNat_u8 (f : Bytes) (off : Nat) : BitVec.ofNat 8 (u8 f off) = byteAt f off := BitVec.ofNat_toNat 8 _

/-! ### VALIDATE and the checks before the dispatch (R143, R152, R153) -/

theorem validate_of_sum_ne {P : RawParams} {f : Bytes} (h : byteAt f (f.length - 1) ≠ ck P.ck f.dropLast)
    (t : MsgType) : validate P f t = some .checksumMismatch := if_pos h

theorem validate_of_tag_ne {P : RawParams} {f : Bytes} {t : MsgType}
    (hsum : byteAt f (f.length - 1) = ck P.ck f.dropLast) (h : byteAt f 2 ≠ tagOf P t) :
    validate P f t = some .unexpectedMessageType := (if_neg (not_not.mpr hsum)).trans (if_pos h)

theorem validate_eq_none {P : RawParams} {f : Bytes} {t : MsgType}
    (hsum : byteAt f (f.length - 1) = ck P.ck f.dropLast) (htag : byteAt f 2 = tagOf P t) :
    validate P f t = none := (if_neg (not_not.mpr hsum)).trans (if_neg (not_not.mpr htag))

/-- Settles O41: in three bytes the last byte and the tag are the frame's own. -/
theorem validateTestsChecksumThenTag : Obligations.ValidateTestsChecksumThenTag := by
  intro P f t hlen sum tag
  have hsum : byteAt f (f.length - 1) = ck P.ck f.dropLast ↔ sum := byteAt_last_eq_iff (by omega) _
  have htag : byteAt f 2 = tagOf P t ↔ tag := by
    rw [byteAt_eq_iff (by omega)]
    cases t <;> rfl
  exact ⟨fun h => validate_of_sum_ne (mt hsum.mp h) t, fun h h' => validate_of_tag_ne (hsum.mpr h) (mt htag.mp h'),
    fun h h' => validate_eq_none (hsum.mpr h) (htag.mpr h')⟩

theorem precheck_of_short {P : RawParams} {f : Bytes} (h : f.length < 5) : precheck P f = some .malformedFrame :=
  if_pos h

theorem precheck_of_header_ne {P : RawParams} {f : Bytes} (hlen : 5 ≤ f.length)
    (h : ¬ (byteAt f 0 = hdr0 ∧ byteAt f 1 = hdr1)) : precheck P f = some .malformedFrame :=
  (if_neg (not_lt.mpr hlen)).trans (if_pos (not_and_or.mp h))

theorem precheck_of_header {P : RawParams} {f : Bytes} (hlen : 5 ≤ f.length)
    (h : byteAt f 0 = hdr0 ∧ byteAt f 1 = hdr1) : precheck P f = validate P f .report :=
  (if_neg (not_lt.mpr hlen)).trans (if_neg (fun h' => not_and_or.mpr h' h))

theorem decodeFrame_of_precheck {P : RawParams} {f : Bytes} {k : FailureKind} (h : precheck P f = some k)
    (co2f : Nat) : decodeFrame P f false co2f = .failure k := by
  simp [decodeFrame, h]

/-- Past the checks a frame of a known device is what that device's decoder makes of it (R150, R178). -/
theorem decodeFrame_of_device {P : RawParams} {f : Bytes} {v : Variant} (hpre : precheck P f = none)
    (hdev : byteAt f 3 = deviceByte v) (co2f : Nat) :
    decodeFrame P f false co2f = eventOf (deviceDecoder v P f co2f) := by
  rw [decodeFrame_of_dispatch (by rw [hdev, dispatch_deviceByte]), hpre]

/-- A frame of a length that is not the variant's is refused by the device decoder (R157). -/
theorem deviceDecoder_of_length_ne {P : RawParams} {f : Bytes} {v : Variant} (h : f.length ≠ reportLen P v)
    (co2f : Nat) : deviceDecoder v P f co2f = .error .malformedFrame := by
  cases v <;> exact if_pos h

theorem deviceDecoder_of_length_eq {P : RawParams} {f : Bytes} {v : Variant} (h : f.length = reportLen P v)
    (co2f : Nat) : ∃ r, deviceDecoder v P f co2f = .ok r := by
  cases v <;> exact ⟨_, if_neg (not_not.mpr h)⟩

/-- Settles O40: the checks in their order, each clause under the ones before it. -/
theorem decodeReportsTheFirstFailingCheck : Obligations.DecodeReportsTheFirstFailingCheck := by
  intro P f ovf co2f e hdr sum tag
  have hhdr : 5 ≤ f.length → (byteAt f 0 = hdr0 ∧ byteAt f 1 = hdr1 ↔ hdr) := fun hlen => by
    rw [byteAt_eq_iff (by omega), byteAt_eq_iff (by omega)]
    exact Iff.rfl
  have hsum : 5 ≤ f.length → (byteAt f (f.length - 1) = ck P.raw.ck f.dropLast ↔ sum) := fun hlen =>
    byteAt_last_eq_iff (by omega) _
  have htag : 5 ≤ f.length → (byteAt f 2 = tagOf P.raw .report ↔ tag) := fun hlen => byteAt_eq_iff (by omega) _
  have hpass : 5 ≤ f.length → hdr → sum → tag → precheck P.raw f = none := fun hlen h hs ht => by
    rw [precheck_of_header hlen ((hhdr hlen).mpr h), validate_eq_none ((hsum hlen).mpr hs) ((htag hlen).mpr ht)]
  refine ⟨?_, ?_, ?_, ?_, ?_, ?_, ?_, ?_⟩
  · rintro rfl
    rfl
  · rintro rfl hlen
    exact decodeFrame_of_precheck (precheck_of_short hlen) co2f
  · rintro rfl hlen h
    exact decodeFrame_of_precheck (precheck_of_header_ne hlen (mt (hhdr hlen).mp h)) co2f
  · rintro rfl hlen h hs
    refine decodeFrame_of_precheck ?_ co2f
    rw [precheck_of_header hlen ((hhdr hlen).mpr h), validate_of_sum_ne (mt (hsum hlen).mp hs)]
  · rintro rfl hlen h hs ht
    refine decodeFrame_of_precheck ?_ co2f
    rw [precheck_of_header hlen ((hhdr hlen).mpr h),
      validate_of_tag_ne ((hsum hlen).mpr hs) (mt (htag hlen).mp ht)]
  · rintro rfl hlen h hs ht hdev
    have hpre := hpass hlen h hs ht
    have hnone := (dispatch_eq_none_iff_not_isDevice _).mpr (hdev _ (getElem?_device_of_precheck hpre))
    exact decodeFrame_of_dispatch_eq_none hpre hnone co2f
  · rintro v rfl hlen h hs ht hdev hne
    have hv := (byteAt_eq_iff (by omega) _).mpr hdev
    refine (decodeFrame_of_device (hpass hlen h hs ht) hv co2f).trans ?_
    rw [deviceDecoder_of_length_ne hne]
    rfl
  · rintro v rfl hlen h hs ht hdev heq
    have hv := (byteAt_eq_iff (by omega) _).mpr hdev
    obtain ⟨r, hr⟩ := deviceDecoder_of_length_eq heq co2f
    refine ⟨r, (decodeFrame_of_device (hpass hlen h hs ht) hv co2f).trans ?_⟩
    rw [hr]
    rfl

/-! ### The report instructions (R150, R153, R157) -/

theorem byteAt_reportBytes_last (P : RawParams) (v : Variant) (body : Bytes) (cks : Byte) :
    byteAt (reportBytes P v body cks) ((reportBytes P v body cks).length - 1) = cks := by
  rw [byteAt_last_eq_iff (by simp [reportBytes]), reportBytes, List.getLast?_concat]

theorem precheck_reportBytes {P : RawParams} {v : Variant} {body : Bytes} {cks : Byte}
    (h : cks = ck P.ck (reportBytes P v body cks).dropLast) : precheck P (reportBytes P v body cks) = none := by
  refine (precheck_eq_none P _).mpr ⟨?_, rfl, rfl, (byteAt_reportBytes_last P v body cks).trans h, rfl⟩
  rw [Laws.reportBytes_length]
  omega

/-- A report instruction with the right checksum is its device decoder. -/
theorem exec_reportInstr_of_sum {s : State} {v : Variant} {body : Bytes} {cks : Byte}
    (h : cks = ck s.par.raw.ck (reportBytes s.par.raw v body cks).dropLast) :
    exec (reportInstr v body cks) s = .next (s.emit
      [eventOf (deviceDecoder v s.par.raw (reportBytes s.par.raw v body cks) s.co2f)]) := by
  rw [exec_reportInstr, decodeAs_eq, precheck_reportBytes h]

/-- Settles O45. -/
theorem damagedReportsFail : Obligations.DamagedReportsFail := by
  intro s v body cks f
  refine ⟨fun hne => ?_, fun hsum hlen => ?_⟩
  · have hpre : precheck s.par.raw f = some .checksumMismatch := by
      have hlen : 5 ≤ f.length := by
        simp only [f, Laws.reportBytes_length]
        omega
      rw [precheck_of_header hlen ⟨rfl, rfl⟩, validate_of_sum_ne]
      rwa [byteAt_reportBytes_last]
    rw [exec_reportInstr, decodeAs_eq, hpre]
    rfl
  · rw [exec_reportInstr_of_sum hsum, deviceDecoder_of_length_ne hlen]
    rfl

/-! ### The fields of a report (R159, R162) -/

theorem field_two (f : Bytes) (off m : Nat) : field f ⟨off, 2, m⟩ = u16be f off * m := by
  rw [field, rawField, memRead_two]

theorem field_three (f : Bytes) (off m : Nat) : field f ⟨off, 3, m⟩ = u24be f off * m := by
  rw [field, rawField, memRead_three]

theorem field_four (f : Bytes) (off m : Nat) : field f ⟨off, 4, m⟩ = u32be f off * m := by
  rw [field, rawField, memRead_four]

theorem co2Of_eq (e c : Nat) : co2Of e c = (e * c + 500000) / 1000000 := by
  rw [co2Of, roundHalfUp]
  omega

/-- The AC Reading of a frame, its offsets and multipliers written out (R161 to R163). -/
def acReading (f : Bytes) (co2f : Nat) : AcReading where
  voltageMv := u24be f 4 * 100
  currentMa := u24be f 7
  powerMw := u24be f 10 * 100
  energyMwh := u32be f 13 * 10000
  priceC := u24be f 17
  freqDhz := u16be f 20
  pfMilli := u16be f 22
  tempC := u16be f 24
  dur := durationOf f 26
  blRaw := BitVec.ofNat 8 (u8 f 30)
  blClass := classifyBl (BitVec.ofNat 8 (u8 f 30))
  co2 := (u32be f 13 * 10000 * co2f + 500000) / 1000000
  feeMant := u32be f 13 * u24be f 17
  feeExp := -1

/-- The DC Reading of a frame, its offsets and multipliers written out (R166 to R168). -/
def dcReading (f : Bytes) (co2f : Nat) : DcReading where
  voltageMv := u24be f 4 * 100
  currentMa := u24be f 7
  energyMwh := u32be f 13 * 10
  priceC := u24be f 17
  tempC := u16be f 24
  dur := durationOf f 26
  blRaw := BitVec.ofNat 8 (u8 f 30)
  blClass := classifyBl (BitVec.ofNat 8 (u8 f 30))
  powerMant := u24be f 4 * u24be f 7
  powerExp := -1
  co2 := (u32be f 13 * 10 * co2f + 500000) / 1000000
  feeMant := u32be f 13 * u24be f 17
  feeExp := -7

theorem decAc_of_length_eq {P : RawParams} {f : Bytes} (h : f.length = P.lenAc) (co2f : Nat) :
    decAc P f co2f = .ok (.ac (acReading f co2f)) := by
  have hlen : f.length = reportLen P .ac := h
  rw [decAc, if_neg (not_not.mpr hlen), acReading]
  simp only [layoutAc, field_two, field_three, field_four, rawField, memRead_three, memRead_four, mul_one, co2Of_eq,
    ofNat_u8]
  rfl

theorem decDc_of_length_eq {P : RawParams} {f : Bytes} (h : f.length = P.lenDc) (co2f : Nat) :
    decDc P f co2f = .ok (.dc (dcReading f co2f)) := by
  have hlen : f.length = reportLen P .dc := h
  rw [decDc, if_neg (not_not.mpr hlen), dcReading]
  simp only [layoutDc, field_two, field_three, field_four, rawField, memRead_three, memRead_four, mul_one, co2Of_eq,
    ofNat_u8]
  rfl

theorem decAc_eq_ok {P : RawParams} {f : Bytes} {co2f : Nat} {r : AcReading} (h : decAc P f co2f = .ok (.ac r)) :
    r = acReading f co2f := by
  by_cases hlen : f.length = P.lenAc
  · rw [decAc_of_length_eq hlen] at h
    cases h
    rfl
  · cases (deviceDecoder_of_length_ne (v := .ac) hlen co2f).symm.trans h

theorem decDc_eq_ok {P : RawParams} {f : Bytes} {co2f : Nat} {r : DcReading} (h : decDc P f co2f = .ok (.dc r)) :
    r = dcReading f co2f := by
  by_cases hlen : f.length = P.lenDc
  · rw [decDc_of_length_eq hlen] at h
    cases h
    rfl
  · cases (deviceDecoder_of_length_ne (v := .dc) hlen co2f).symm.trans h

/-- Settles O42. -/
theorem acReportDecodesToItsReading : Obligations.AcReportDecodesToItsReading := by
  intro s body cks f hlen hsum
  refine (exec_reportInstr_of_sum (v := .ac) hsum).trans ?_
  rw [deviceDecoder, decAc_of_length_eq hlen]
  rfl

/-- Settles O43. -/
theorem dcReportDecodesToItsReading : Obligations.DcReportDecodesToItsReading := by
  intro s body cks f hlen hsum
  refine (exec_reportInstr_of_sum (v := .dc) hsum).trans ?_
  rw [deviceDecoder, decDc_of_length_eq hlen]
  rfl

/-! ### USB reports (R170 to R172, C9) -/

/-- The USB Reading of a frame by the table `l`. -/
def usbReading (l : UsbLayout) (f : Bytes) (co2f : Nat) : UsbReading where
  voltageMv := l.voltage.map (field f)
  currentMa := l.current.map (field f)
  powerMw := l.power.map (field f)
  energyMwh := l.energy.map (field f)
  priceC := l.price.map (field f)
  freqDhz := l.freq.map (field f)
  pfMilli := l.pf.map (field f)
  dminusMv := l.dminus.map (field f)
  dplusMv := l.dplus.map (field f)
  chargeMah := l.charge.map (field f)
  tempC := l.temp.map (field f)
  dur := l.durOff.map (durationAt f)
  blRaw := l.blOff.map (byteAt f)
  blClass := l.blOff.map (fun o => classifyBl (byteAt f o))
  extra := l.extra.map (field f)
  derivedPower := usbPower l f
  co2 := usbCo2 l f co2f
  fee := usbFee l f

theorem decUsb_of_length_eq {P : RawParams} {f : Bytes} (h : f.length = P.lenUsb) (co2f : Nat) :
    decUsb P f co2f = .ok (.usb (usbReading P.layoutUsb f co2f)) := if_neg (not_not.mpr h)

theorem exec_reportUsb_of_sum {s : State} {body : Bytes} {cks : Byte}
    (hlen : (reportBytes s.par.raw .usb body cks).length = s.par.raw.lenUsb)
    (hsum : cks = ck s.par.raw.ck (reportBytes s.par.raw .usb body cks).dropLast) :
    exec (.reportUsb body cks) s = .next (s.emit
      [.reading (.usb (usbReading s.par.raw.layoutUsb (reportBytes s.par.raw .usb body cks) s.co2f))]) := by
  refine (exec_reportInstr_of_sum (v := .usb) hsum).trans ?_
  rw [deviceDecoder, decUsb_of_length_eq hlen]
  rfl

theorem usbPower_default (f : Bytes) : usbPower layoutUsbDefault f = some ⟨u24be f 4 * u24be f 7, -1⟩ := by
  have hpower : usbPower layoutUsbDefault f = some ⟨memRead f 4 3 * memRead f 7 3 * 1, -1⟩ := rfl
  rw [hpower, memRead_three, memRead_three, mul_one]

/-- Settles O44: the default table's rows; 100 times 1 is a multiple of 100, so the power is in tenths. -/
theorem usbReportDecodesToItsReading : Obligations.UsbReportDecodesToItsReading := by
  intro s body cks f hlayout hlen hsum
  rw [exec_reportUsb_of_sum hlen hsum, hlayout]
  rw [usbReading, usbPower_default]
  simp only [layoutUsbDefault, Option.map_some, Option.map_none, List.map_nil, field_two, field_three, field_four,
    mul_one, ofNat_u8]
  rfl

/-- A derived power is there exactly with the two fields it is derived from (R172). -/
theorem usbPower_of_some {l : UsbLayout} {f : Bytes} {v c : Nat} (hderives : l.derivesPower = true)
    (hv : l.voltage.map (field f) = some v) (hc : l.current.map (field f) = some c) :
    ∃ p, usbPower l f = some p ∧ (p.mant : ℚ) * 10 ^ p.exp = (v : ℚ) * c / 1000 := by
  obtain ⟨dv, hdv, rfl⟩ := Option.map_eq_some_iff.mp hv
  obtain ⟨dc, hdc, rfl⟩ := Option.map_eq_some_iff.mp hc
  refine ⟨powerOf f dv dc, ?_, powerOf_value f dv dc⟩
  rw [usbPower, if_pos hderives, hdv, hdc]
  rfl

theorem usbPower_eq_none {l : UsbLayout} {f : Bytes}
    (h : l.derivesPower = false ∨ l.voltage.map (field f) = none ∨ l.current.map (field f) = none) :
    usbPower l f = none := by
  unfold usbPower
  obtain h | h | h := h
  · simp [h]
  · simp [Option.map_eq_none_iff.mp h]
  · simp [Option.map_eq_none_iff.mp h]

theorem usbCo2_of_some {l : UsbLayout} {f : Bytes} {e : Nat} (hderives : l.derivesCo2 = true)
    (he : l.energy.map (field f) = some e) (co2f : Nat) :
    usbCo2 l f co2f = some ((e * co2f + 500000) / 1000000) := by
  obtain ⟨de, hde, rfl⟩ := Option.map_eq_some_iff.mp he
  rw [usbCo2, if_pos hderives, hde, Option.map_some, co2Of_eq]

theorem usbCo2_eq_none {l : UsbLayout} {f : Bytes} (h : l.derivesCo2 = false ∨ l.energy.map (field f) = none)
    (co2f : Nat) : usbCo2 l f co2f = none := by
  unfold usbCo2
  obtain h | h := h
  · simp [h]
  · simp [Option.map_eq_none_iff.mp h]

/-- A fee is energy × price / D with the price in hundredths (C9). -/
theorem usbFee_of_some {l : UsbLayout} {f : Bytes} {e p : Nat} (hdiv : l.feeDiv ≠ 0)
    (he : l.energy.map (field f) = some e) (hp : l.price.map (field f) = some p) :
    ∃ q, usbFee l f = some q ∧ (q.num : ℚ) / q.den = (e : ℚ) * ((p : ℚ) / 100) / l.feeDiv := by
  obtain ⟨de, hde, rfl⟩ := Option.map_eq_some_iff.mp he
  obtain ⟨dp, hdp, rfl⟩ := Option.map_eq_some_iff.mp hp
  refine ⟨⟨field f de * field f dp, 100 * l.feeDiv⟩, ?_, ?_⟩
  · rw [usbFee, if_neg hdiv, hde, hdp]
    rfl
  · push_cast
    rw [← mul_div_assoc, div_div]

theorem usbFee_eq_none {l : UsbLayout} {f : Bytes}
    (h : l.feeDiv = 0 ∨ l.energy.map (field f) = none ∨ l.price.map (field f) = none) : usbFee l f = none := by
  unfold usbFee
  obtain h | h | h := h
  · simp [h]
  · simp [Option.map_eq_none_iff.mp h]
  · simp [Option.map_eq_none_iff.mp h]

/-- Settles O60: the fields are those of `usbReading`, the derived values by the rule of each. -/
theorem usbReportDecodesByItsTable : Obligations.UsbReportDecodesByItsTable := by
  intro s body cks f l num hlen hsum
  refine ⟨usbReading l f s.co2f, exec_reportUsb_of_sum hlen hsum,
    ⟨rfl, rfl, rfl, rfl, rfl, rfl, rfl, rfl, rfl, rfl, rfl, rfl⟩, ⟨rfl, ?_, ?_⟩,
    fun _ _ hd hv hc => usbPower_of_some hd hv hc, usbPower_eq_none, fun _ hd he => usbCo2_of_some hd he _,
    fun h => usbCo2_eq_none h _, fun _ _ hd he hp => usbFee_of_some hd he hp, usbFee_eq_none⟩
  · simp only [ofNat_u8]
    rfl
  · simp only [ofNat_u8]
    rfl

/-! ### Bytes that no field covers (R85) -/

/-- Two frames have the same bytes at the indices of `C`. -/
def AgreeOn (C : Nat → Prop) (f g : Bytes) : Prop := ∀ i, C i → f[i]? = g[i]?

theorem rawField_congr {C : Nat → Prop} {f g : Bytes} (h : AgreeOn C f g) {d : Desc}
    (hd : ∀ i, d.off ≤ i → i < d.off + d.n → C i) : rawField f d = rawField g d :=
  memRead_congr fun i hlo hhi => h i (hd i hlo hhi)

theorem durationAt_congr {C : Nat → Prop} {f g : Bytes} (h : AgreeOn C f g) {od : Nat}
    (hd : ∀ i, od ≤ i → i < od + 4 → C i) : durationAt f od = durationAt g od := by
  have hbyte : ∀ k < 4, byteAt f (od + k) = byteAt g (od + k) := fun k hk =>
    byteAt_congr (h _ (hd _ (by omega) (by omega)))
  have h0 := hbyte 0 (by decide)
  have h1 := hbyte 1 (by decide)
  have h2 := hbyte 2 (by decide)
  have h3 := hbyte 3 (by decide)
  simp only [Nat.add_zero] at h0
  simp only [durationAt, u16be, u8, h0, h1, h2, h3]

theorem decAc_congr {P : RawParams} {f g : Bytes} (hlen : f.length = g.length) (h : AgreeOn (· < 31) f g)
    (co2f : Nat) : decAc P f co2f = decAc P g co2f := by
  have hraw : ∀ d : Desc, d.off + d.n ≤ 31 → rawField f d = rawField g d := fun d hd =>
    rawField_congr h (fun i _ hi => lt_of_lt_of_le hi hd)
  have hbl : byteAt f layoutAc.blOff = byteAt g layoutAc.blOff := byteAt_congr (h 30 (by decide))
  have hdur : durationAt f layoutAc.durOff = durationAt g layoutAc.durOff :=
    durationAt_congr h (fun i _ hi => lt_trans hi (by decide))
  simp only [decAc, hlen, field, hbl, hdur, hraw layoutAc.voltage (by decide), hraw layoutAc.current (by decide),
    hraw layoutAc.power (by decide), hraw layoutAc.energy (by decide), hraw layoutAc.price (by decide),
    hraw layoutAc.freq (by decide), hraw layoutAc.pf (by decide), hraw layoutAc.temp (by decide)]

theorem decDc_congr {P : RawParams} {f g : Bytes} (hlen : f.length = g.length)
    (h : AgreeOn (fun i => i < 10 ∨ 13 ≤ i ∧ i < 20 ∨ 24 ≤ i ∧ i < 31) f g) (co2f : Nat) :
    decDc P f co2f = decDc P g co2f := by
  have hraw : ∀ d : Desc, (d.off + d.n ≤ 10 ∨ 13 ≤ d.off ∧ d.off + d.n ≤ 20 ∨ 24 ≤ d.off ∧ d.off + d.n ≤ 31) →
      rawField f d = rawField g d := fun d hd => rawField_congr h (by omega)
  have hbl : byteAt f layoutDc.blOff = byteAt g layoutDc.blOff := byteAt_congr (h 30 (by decide))
  have hdur : durationAt f layoutDc.durOff = durationAt g layoutDc.durOff :=
    durationAt_congr (od := 26) h (by omega)
  simp only [decDc, hlen, field, hbl, hdur, hraw layoutDc.voltage (by decide), hraw layoutDc.current (by decide),
    hraw layoutDc.energy (by decide), hraw layoutDc.price (by decide), hraw layoutDc.temp (by decide)]

theorem decUsb_congr {P : RawParams} (hlayout : P.layoutUsb = layoutUsbDefault) {f g : Bytes}
    (hlen : f.length = g.length) (h : AgreeOn (fun i => i < 10 ∨ 13 ≤ i ∧ i < 32) f g) (co2f : Nat) :
    decUsb P f co2f = decUsb P g co2f := by
  have hraw : ∀ d : Desc, (d.off + d.n ≤ 10 ∨ 13 ≤ d.off ∧ d.off + d.n ≤ 32) → rawField f d = rawField g d :=
    fun d hd => rawField_congr h (by omega)
  have hbl : byteAt f 31 = byteAt g 31 := byteAt_congr (h 31 (by decide))
  have hdur : durationAt f 27 = durationAt g 27 := durationAt_congr h (by omega)
  simp only [decUsb, hlayout, hlen, layoutUsbDefault, usbPower, powerOf, usbCo2, usbFee, Option.map_some,
    Option.map_none, Option.bind_some, List.map_nil, field, hbl, hdur, hraw ⟨4, 3, 100⟩ (by decide),
    hraw ⟨7, 3, 1⟩ (by decide), hraw ⟨13, 4, 10⟩ (by decide), hraw ⟨17, 2, 10⟩ (by decide),
    hraw ⟨19, 2, 10⟩ (by decide), hraw ⟨21, 4, 1⟩ (by decide), hraw ⟨25, 2, 1⟩ (by decide)]

/-- Two valid frames with the same device byte that its decoder does not tell apart decode alike. -/
theorem decodeFrame_congr {P : RawParams} {f g : Bytes} {co2f : Nat} {v : Variant} (hf : precheck P f = none)
    (hg : precheck P g = none) (hdev : f[3]? = some (deviceByte v)) (h3 : f[3]? = g[3]?)
    (hdec : deviceDecoder v P f co2f = deviceDecoder v P g co2f) :
    decodeFrame P f false co2f = decodeFrame P g false co2f := by
  have hfv : byteAt f 3 = deviceByte v := Option.some.inj ((getElem?_device_of_precheck hf).symm.trans hdev)
  have hgv : byteAt g 3 = deviceByte v := (byteAt_congr h3).symm.trans hfv
  rw [decodeFrame_of_device hf hfv, decodeFrame_of_device hg hgv, hdec]

/-- Settles O46: the device byte and every byte a field or the duration or the backlight reads are among those the two
frames share. -/
theorem uncoveredBytesDoNotMatter : Obligations.UncoveredBytesDoNotMatter := by
  intro P f g co2f hlen hf hg
  exact ⟨fun hdev h => decodeFrame_congr (v := .ac) hf hg hdev (h 3 (by decide)) (decAc_congr hlen h co2f),
    fun hdev h => decodeFrame_congr (v := .dc) hf hg hdev (h 3 (by decide)) (decDc_congr hlen h co2f),
    fun hlayout hdev h => decodeFrame_congr (v := .usb) hf hg hdev (h 3 (by decide))
      (decUsb_congr hlayout hlen h co2f)⟩

/-! ### Fees and widths (R109, R169, R177) -/

theorem u16be_lt (f : Bytes) (off : Nat) : u16be f off < 2 ^ 16 := by
  rw [← memRead_two]
  exact memRead_lt f off 2

theorem u24be_lt (f : Bytes) (off : Nat) : u24be f off < 2 ^ 24 := by
  rw [← memRead_three]
  exact memRead_lt f off 3

theorem u32be_lt (f : Bytes) (off : Nat) : u32be f off < 2 ^ 32 := by
  rw [← memRead_four]
  exact memRead_lt f off 4

/-- Settles O47: the mantissas are raw energy times raw price, and the two scales of energy differ by 1000. -/
theorem feeAsymmetryIsExact : Obligations.FeeAsymmetryIsExact := by
  intro P f g c c' a d ha hd
  obtain rfl := decAc_eq_ok ha
  obtain rfl := decDc_eq_ok hd
  simp only [acReading, dcReading]
  refine ⟨fun henergy hprice => ?_, fun henergy hprice => ?_⟩
  · have he : (u32be g 13 : ℚ) = 1000 * u32be f 13 := by
      have : u32be g 13 = 1000 * u32be f 13 := by omega
      exact_mod_cast this
    rw [hprice]
    push_cast
    rw [he]
    norm_num
    ring
  · refine ⟨by rw [henergy, hprice], ?_⟩
    rw [henergy, hprice]
    norm_num
    ring

/-- R162's rounding keeps a 46-bit energy times a 32-bit factor below 2^59. -/
theorem co2_lt {e c : Nat} (he : e < 2 ^ 46) (hc : c < 2 ^ 32) : (e * c + 500000) / 1000000 < 2 ^ 59 := by
  have hmul : e * c < 2 ^ 46 * 2 ^ 32 := Nat.mul_lt_mul'' he hc
  omega

theorem fee_lt (f : Bytes) (e p : Nat) : u32be f e * u24be f p < 2 ^ 56 :=
  (Nat.mul_lt_mul'' (u32be_lt f e) (u24be_lt f p)).trans_eq (by norm_num)

/-- Settles O48: each field from the bytes it is read from. -/
theorem readingFieldsFitTheirWidths : Obligations.ReadingFieldsFitTheirWidths := by
  intro P f co2f hco2f
  have hv := u24be_lt f 4
  have hi := u24be_lt f 7
  have hw := u24be_lt f 10
  have he := u32be_lt f 13
  refine ⟨fun r hr => ?_, fun r hr => ?_⟩
  · obtain rfl := decAc_eq_ok hr
    have henergy : u32be f 13 * 10000 < 2 ^ 46 := by omega
    exact ⟨show u24be f 4 * 100 < 2 ^ 31 by omega, hi, show u24be f 10 * 100 < 2 ^ 31 by omega, henergy,
      u24be_lt f 17, u16be_lt f 20, u16be_lt f 22, u16be_lt f 24, u16be_lt f 26, u8_lt f 28, u8_lt f 29,
      co2_lt henergy hco2f, fee_lt f 13 17⟩
  · obtain rfl := decDc_eq_ok hr
    have henergy : u32be f 13 * 10 < 2 ^ 46 := by omega
    exact ⟨show u24be f 4 * 100 < 2 ^ 31 by omega, hi, henergy, u24be_lt f 17, u16be_lt f 24, u16be_lt f 26,
      u8_lt f 28, u8_lt f 29, (Nat.mul_lt_mul'' hv hi).trans_eq (by norm_num), co2_lt henergy hco2f, fee_lt f 13 17⟩

end Sys2Proof.Proofs
end
